-- ==== Sys2Proof/Word.lean ====
section
/-! DEFINITION. The word types of SBFS: the fixed widths of 00_scope.md R7. -/

namespace Sys2Proof

/-- A 32-bit word: the host data path, a command word, a tuning word, a window register (R7). -/
abbrev Word := BitVec 32

/-- A 16-bit value: an IC register value, the range selector (R7). -/
abbrev Half := BitVec 16

/-- An 8-bit value: a serial byte, the band operand, the channel operand, an IC register index (R7, R56). -/
abbrev Byte := BitVec 8

end Sys2Proof
end

