-- ==== Sys2Proof/Syntax.lean ====
section
/-! DEFINITION. The commands of SBFS (30_encoding.md R53 to R58), one constructor for each row of
spec/opcode_table.json, and the assembler's command lines (R62, R64). -/

namespace Sys2Proof

/-- The source's Mode, as the mode bit `M` encodes it (R57). -/
inductive Mode where
  | receive   -- `M = 0`
  | transmit  -- `M = 1`
  deriving DecidableEq, Repr

/-- A command: what a command word that is not bad decodes to (R59). The operands are the unsigned
fields of R56. -/
inductive Instr where
  | start
  | stop
  | txbyte (byte : Byte)
  | wrreg (idx : Byte) (value : Half)
  | tune (mode : Mode) (band : Byte) (channel : Byte)
  | wrfreq (mode : Mode) (band : Byte) (channel : Byte)
  deriving DecidableEq, Repr

/-- A command line of the assembler (R62), the pseudo-instruction XFER among them (R64). Its numerals are
plain numbers: an assembler refuses one that is out of its range (`AsmLine.wellFormed`). -/
inductive AsmLine where
  | start
  | stop
  | txbyte (byte : Nat)
  | wrreg (idx value : Nat)
  | tune (mode : Mode) (band channel : Nat)
  | wrfreq (mode : Mode) (band channel : Nat)
  | xfer (idx value : Nat)
  deriving DecidableEq, Repr

end Sys2Proof
end

