-- ==== Sys2Proof/Decode.lean ====
section
/-! DEFINITION. The command decoder (30_encoding.md R59), the opcode map it reads (R58), and the encoder
(R55, R62). -/

namespace Sys2Proof

/-- Why a word is `Bad` (R60). The block records neither the reason nor the word (R96). -/
inductive BadWord where
  | reservedOpcode (op : BitVec 4)  -- opcode 0x0 or 0x7 to 0xF
  | reservedBits (op : BitVec 4)    -- a defined opcode with a reserved-zero bit set
  deriving DecidableEq, Repr

/-- `w[hi:lo]` with `hi = lo + width - 1` (R8). -/
def field (w : Word) (lo width : Nat) : BitVec width := w.extractLsb' lo width

/-- The opcode field `w[31:28]` (R54). -/
def opField (w : Word) : BitVec 4 := field w 28 4

/-- The mode a mode bit `M` stands for (R57). -/
def modeOfBit (m : Bool) : Mode := if m then .transmit else .receive

/-- The mode bit `M` of a mode (R57). -/
def bitOfMode : Mode → Bool
  | .receive => false
  | .transmit => true

/-- The mode operand `w[24]` of format T (R56, R57). -/
def modeField (w : Word) : Mode := modeOfBit (w.getLsbD 24)

/-- A command if the reserved-zero bits are clear, else `Bad`. -/
def strict (clear : Bool) (op : BitVec 4) (i : Instr) : Except BadWord Instr :=
  if clear then .ok i else .error (.reservedBits op)

/-- The decoder: a total function from any 32-bit word to a command or `Bad` (R59). -/
def decode (w : Word) : Except BadWord Instr :=
  let op := opField w
  if op = 0x1#4 then strict (field w 0 28 == 0#28) op .start
  else if op = 0x2#4 then strict (field w 0 28 == 0#28) op .stop
  else if op = 0x3#4 then strict (field w 8 20 == 0#20) op (.txbyte (field w 0 8))
  else if op = 0x4#4 then strict (field w 24 4 == 0#4) op (.wrreg (field w 16 8) (field w 0 16))
  else if op = 0x5#4 then
    strict (field w 25 3 == 0#3 && field w 16 8 == 0#8) op (.tune (modeField w) (field w 8 8) (field w 0 8))
  else if op = 0x6#4 then
    strict (field w 25 3 == 0#3 && field w 16 8 == 0#8) op (.wrfreq (modeField w) (field w 8 8) (field w 0 8))
  else .error (.reservedOpcode op)

/-- A row of the opcode map (R58): a word matches it when `(w & mask) == match`. -/
structure OpcodeRow where
  mnemonic : String
  mask     : Word
  pattern  : Word
  deriving DecidableEq, Repr

/-- The opcode map (R58), in the table's order. -/
def opcodeMap : List OpcodeRow :=
  [ { mnemonic := "START",  mask := 0xFFFFFFFF#32, pattern := 0x10000000#32 },
    { mnemonic := "STOP",   mask := 0xFFFFFFFF#32, pattern := 0x20000000#32 },
    { mnemonic := "TXBYTE", mask := 0xFFFFFF00#32, pattern := 0x30000000#32 },
    { mnemonic := "WRREG",  mask := 0xFF000000#32, pattern := 0x40000000#32 },
    { mnemonic := "TUNE",   mask := 0xFEFF0000#32, pattern := 0x50000000#32 },
    { mnemonic := "WRFREQ", mask := 0xFEFF0000#32, pattern := 0x60000000#32 } ]

/-- Whether a word matches a row of the opcode map (R59). -/
def OpcodeRow.matches (r : OpcodeRow) (w : Word) : Bool := w &&& r.mask == r.pattern

/-- A command's mnemonic in the opcode map (R58). -/
def Instr.mnemonic : Instr → String
  | .start => "START"
  | .stop => "STOP"
  | .txbyte _ => "TXBYTE"
  | .wrreg _ _ => "WRREG"
  | .tune _ _ _ => "TUNE"
  | .wrfreq _ _ _ => "WRFREQ"

/-- The encoder: the word of a command, field by field from bit 31 down (R55, R62). -/
def encode : Instr → Word
  | .start => 0x1#4 ++ 0#28
  | .stop => 0x2#4 ++ 0#28
  | .txbyte byte => 0x3#4 ++ 0#20 ++ byte
  | .wrreg idx value => 0x4#4 ++ 0#4 ++ idx ++ value
  | .tune mode band channel => 0x5#4 ++ 0#3 ++ BitVec.ofBool (bitOfMode mode) ++ 0#8 ++ band ++ channel
  | .wrfreq mode band channel => 0x6#4 ++ 0#3 ++ BitVec.ofBool (bitOfMode mode) ++ 0#8 ++ band ++ channel

/-- The instruction the decoder reads from an instruction of `nbits` bits `w`, numbered as
spec/opcode_table.json numbers them, every bit above `nbits` 0. A command is one 32-bit word and the window
has no byte order (R37, R53), so the word is the number itself; a number of more than 32 bits is no
command. -/
def decodeTableWord (nbits w : Nat) : Option Instr :=
  let v := w % 2 ^ nbits
  if v < 2 ^ 32 then
    match decode (BitVec.ofNat 32 v) with
    | .ok i => some i
    | .error _ => none
  else none

end Sys2Proof
end

