-- ==== Sys2Proof/Config.lean ====
section
/-! DEFINITION. The build parameters of SBFS (00_scope.md R5, 10_state.md R26 and R33): fixed when the block
is built, no state, changed by nothing. Every parameter whose value no source gives is an opaque constant,
so that whatever is proved holds for every value (DESIGN CHOICE, log 1). -/

namespace Sys2Proof

/-- The six delay parameters of R5. A `Wait(n)` of the spec names its delay and stays symbolic in `n`
(10_state.md R29). -/
inductive Delay where
  /-- `N_SU`, the setup delay of a bit cell -/
  | su
  /-- `N_HI`, the clock-high hold -/
  | hi
  /-- `N_HD`, the settle delay after the clock pulse -/
  | hd
  /-- `N_START`, the micro-delay of the start sequence -/
  | start
  /-- `N_STOP`, the stop hold -/
  | stop
  /-- `N_GAP`, the inter-transaction settle -/
  | gap
  deriving DecidableEq, Repr

/-- One entry of `BAND_TABLE` (R5, R26). -/
structure BandEntry where
  rxBase   : Word
  txBase   : Word
  step     : Word
  rangeSel : Half
  deriving DecidableEq, Repr, Inhabited

/-- `NUM_BANDS` (R5): "one of 8 discrete frequency plans". -/
abbrev numBands : Nat := 8

/-- A band table: one entry for each of the bands 0 to 7 (R26). -/
abbrev BandTable := Fin numBands → BandEntry

/-- `DEFAULT_BAND` (R5): 7, the highest-indexed table entry. -/
def defaultBand : Fin numBands := 7

/-- `BAND_TABLE` (R5, OPEN): a ROM fixed when the block is built (R26). -/
opaque Config.bandTable : BandTable

/-- `DEV_ADDR` (R5, R71, OPEN): the device-address byte of every transaction. -/
opaque Config.devAddr : Byte

/-- How far each delay parameter exceeds 1 (OPEN): the parameters are at least 1 (R5). -/
opaque Config.delayExtra : Delay → Nat

/-- `N_SU`, `N_HI`, `N_HD`, `N_START`, `N_STOP`, `N_GAP` in cycles, each at least 1 (R5). -/
def Config.delayCycles (d : Delay) : Nat := Config.delayExtra d + 1

/-- How far `F_CLK` exceeds 1 Hz (OPEN). -/
opaque Config.clockExtra : Nat

/-- `F_CLK` in Hz, positive (R5, OPEN). No meaning depends on it (R6). -/
def Config.clockHz : Nat := Config.clockExtra + 1

/-- Which 16-byte block of the host's address space holds the window (OPEN, the platform's). -/
opaque Config.baseBlock : Nat

/-- `BASE`, a multiple of 16 (R5). -/
def Config.base : Nat := 16 * Config.baseBlock

/-- The source's nominal figure of a delay in microseconds; `N_START` has none (R5, R6). -/
def Delay.nominalMicros : Delay → Option Nat
  | .su => some 2
  | .hi => some 4
  | .hd => some 2
  | .start => none
  | .stop => some 6
  | .gap => some 20

/-- The nominal value of a delay parameter in cycles: its nominal time at `F_CLK` (R5). R5 gives the product and
a parameter that is a whole number of cycles, at least 1, and no rounding; the model rounds up, which is at least
1 at every `F_CLK` (`one_le_nominalCycles`; DESIGN CHOICE, log 19). Nothing else reads it (R6). -/
def Delay.nominalCycles (d : Delay) : Option Nat :=
  d.nominalMicros.map (fun us => (us * Config.clockHz + 999999) / 1000000)

/-- The identity fields a model records (R2). -/
structure Identity where
  name       : String
  isa        : String
  extensions : String
  version    : String
  vendor     : String
  deriving DecidableEq, Repr

/-- The identity of the block (R2). -/
def Config.identity : Identity :=
  { name := "SBFS", isa := "none", extensions := "none",
    version := "spec-decided interface revision 1", vendor := "none stated" }

end Sys2Proof
end

