-- ==== Sys2Proof/Machine/State.lean ====
section
/-! DEFINITION. The state of SBFS as plain data (10_state.md), its reset values (R34, R108), and the reasons
a step can stop. -/

namespace Sys2Proof.Machine

/-- A pin action (10_state.md R27). `Wait(n)` names its delay parameter and stays symbolic in `n` (R29;
DEDUCED, log 9). For an output, `true` is 1 (data released, clock high) and `false` is 0 (driven low) (R24). -/
inductive PinAction where
  | setSda (v : Bool)
  | setScl (v : Bool)
  | wait (d : Delay)
  deriving DecidableEq, Repr

/-- A host access (00_scope.md R10, 20_memory.md R41): the address is `BASE + off` (DESIGN CHOICE, log 6), the
width is in bytes. A well-formed one has width 4; the others are kept so that they can be refused (R98). -/
inductive HostAccess where
  | read (off : Int) (width : Nat)
  | write (off : Int) (width : Nat) (value : Word)
  deriving DecidableEq, Repr

/-- Who moves in a step (20_memory.md R46, 60_exceptions.md R100). -/
inductive Turn where
  /-- the host makes its next access, or is held by a stalled one (R17, R114) -/
  | host
  /-- the sequencer performs its head action whole (R28) -/
  | sequencer
  /-- one cycle of `F_CLK` goes by (R27, R105) -/
  | clock
  /-- the reset input becomes asserted (R108) -/
  | assertReset
  /-- the reset input is released (R108) -/
  | releaseReset
  deriving DecidableEq, Repr

/-- The four registers of the host window (10_state.md R16). -/
inductive WindowReg where
  | cmd
  | status
  | tuneWord
  | rangeSel
  deriving DecidableEq, Repr

/-- The exceptions of SBFS, complete (60_exceptions.md R97). -/
inductive BlockException where
  | badCommand
  deriving DecidableEq, Repr

/-- The machine. The first nine fields are the block's, the last three are its inputs and outputs as the
model holds them (DESIGN CHOICE, logs 3, 4 and 14). -/
structure State where
  /-- `SDA_OUT` (R24): released (`true`) or driven low -/
  sdaOut : Bool
  /-- `SCL_OUT` (R24): high (`true`) or low -/
  sclOut : Bool
  /-- the sequencer's pending action list (R28); `BUSY` is that it is not empty (R19) -/
  pending : List PinAction
  /-- the cycles of the `Wait` at the head of `pending` that have gone by (R32, R105; DEDUCED, log 10) -/
  waitPos : Nat
  /-- `STATUS.BADCMD` (R20) -/
  badCmd : Bool
  /-- `TUNE_WORD` (R22) -/
  tuneWord : Word
  /-- `RANGE_SEL[15:0]` (R23); bits 31:16 have no storage and read as 0 -/
  rangeSel : Half
  /-- the pin actions performed since reset, oldest first (R29) -/
  trace : List PinAction
  /-- whether the reset input is asserted (R108) -/
  resetLine : Bool
  /-- the host's accesses that have not completed, in program order (R46) -/
  host : List HostAccess
  /-- whose turn the coming steps are (R46); when it is empty `State.nextTurn` picks -/
  turns : List Turn
  /-- the values the host's reads returned, oldest first (R10) -/
  reads : List Word
  deriving DecidableEq, Repr

/-- Why a run stops with a fault. -/
inductive Fault where
  /-- Raised by a 32-bit aligned host access outside the 16 bytes of the window (20_memory.md R35, R44):
  no register of SBFS is there. Safe: the platform decides what happens there, the model claims nothing
  (DESIGN CHOICE, log 7). -/
  | outsideWindow (off : Int)
  deriving DecidableEq, Repr

/-- Why the model gives a step no meaning. -/
inductive Refusal where
  /-- Raised by `exec` for a command without a meaning; no arm raises it. Safe. -/
  | notModelled (mnemonic : String)
  /-- Raised by a host access whose width is not 4 bytes (20_memory.md R41, 60_exceptions.md R98). Safe:
  the spec states no behaviour for it. -/
  | accessWidth (width : Nat)
  /-- Raised by a host access whose address is not a multiple of 4 (R41, R98). Safe: the spec states no
  behaviour for it. -/
  | misalignedAddress (off : Int)
  deriving DecidableEq, Repr

/-- The block right after reset (10_state.md R34, 70_reset_and_hazards.md R108): released data, high clock,
nothing pending, all registers 0, an empty trace, the reset input released (DEDUCED, log 12),
no `Wait` in progress (DEDUCED, log 10); and no host access, no turn and no read yet (DESIGN CHOICE, log 15). -/
def State.reset : State :=
  { sdaOut := true, sclOut := true, pending := [], waitPos := 0, badCmd := false,
    tuneWord := 0#32, rangeSel := 0#16, trace := [], resetLine := false,
    host := [], turns := [], reads := [] }

end Sys2Proof.Machine
end

