-- ==== Sys2Proof/Machine/Flags.lean ====
section
/-! DEFINITION. The flags of SBFS and the `STATUS` register (10_state.md R18 to R21, R31). -/

namespace Sys2Proof.Machine

/-- `STATUS.BUSY`: the pending list is not empty (R19). -/
def State.busy (s : State) : Bool := !s.pending.isEmpty

/-- The host's next command write can be accepted: no reset (R108) and not busy (R17). -/
def State.ready (s : State) : Bool := !s.resetLine && !s.busy

/-- The code of an exception, which is the bit position of its flag in `STATUS` (60_exceptions.md R97). -/
def BlockException.code : BlockException → Nat
  | .badCommand => 1

/-- The `STATUS` register: reserved zeros in 31:4, then `SCL_OUT`, `SDA_OUT`, `BADCMD`, `BUSY` (R18). -/
def statusWord (s : State) : Word :=
  0#28 ++ BitVec.ofBool s.sclOut ++ BitVec.ofBool s.sdaOut ++ BitVec.ofBool s.badCmd ++ BitVec.ofBool s.busy

end Sys2Proof.Machine
end

