-- ==== Sys2Proof/Machine/Operands.lean ====
section
/-! DEFINITION. The synthesizer function over the operands of TUNE and WRFREQ (41_frequency_synth.md R83 to
R88), as the spec decides it (log 17). It takes the band table as an argument; the meanings pass
`Config.bandTable`. -/

namespace Sys2Proof.Machine

/-- The effective band: `band` if it is below `NUM_BANDS`, else `DEFAULT_BAND` (R84). -/
def effectiveBand (band : Byte) : Fin numBands :=
  if h : band.toNat < numBands then ⟨band.toNat, h⟩ else defaultBand

/-- `zext_32(channel >> 1)`: a logical shift, any 8-bit channel (R85). -/
def halfChannel (channel : Byte) : Word := (channel >>> 1).setWidth 32

/-- The base a mode selects: `M = 1` is Transmit (R83). -/
def baseOf (mode : Mode) (e : BandEntry) : Word :=
  match mode with
  | .receive => e.rxBase
  | .transmit => e.txBase

/-- The tuning word and the range selector that `computeTuning` returns. -/
structure Tuning where
  word     : Word
  rangeSel : Half
  deriving DecidableEq, Repr

/-- `computeTuning(M, band, channel)` over a band table (R83): product and sum modulo 2^32 (R86), the range
selector by the effective band only (R87). -/
def tuningIn (table : BandTable) (mode : Mode) (band channel : Byte) : Tuning :=
  let e := table (effectiveBand band)
  { word := baseOf mode e + e.step * halfChannel channel, rangeSel := e.rangeSel }

/-- `computeTuning(M, band, channel)` over the block's own table (R83, R88). -/
def computeTuning (mode : Mode) (band channel : Byte) : Tuning :=
  tuningIn Config.bandTable mode band channel

end Sys2Proof.Machine
end

