-- ==== Sys2Proof/Machine/Ops.lean ====
section
/-! DEFINITION. The named operations over the state: pin actions and the sequencer (10_state.md R27, R28),
acceptance (R17), the bad-command exception (60_exceptions.md R96), the window registers (R16) and reset
(70_reset_and_hazards.md R108). -/

namespace Sys2Proof.Machine

/-- The outcome of one step of SBFS. -/
abbrev Result := Host.Outcome State Fault Refusal

/-! ### Commands -/

/-- `enqueue(seq)`: the list becomes the sequencer's pending work (00_scope.md R10, 10_state.md R28). -/
def enqueue (seq : List PinAction) (s : State) : State := { s with pending := seq }

/-- `TUNE_WORD <- tw; RANGE_SEL <- zext_32(rs)` (41_frequency_synth.md R91, R92, R95). -/
def latchTuning (t : Tuning) (s : State) : State :=
  { s with tuneWord := t.word, rangeSel := t.rangeSel }

/-- The effect of a command on a block that can accept it; on one that cannot (busy, or in reset) the command
waits and nothing changes (10_state.md R17, 70_reset_and_hazards.md R108 and R114; DESIGN CHOICE,
log 11). -/
def whenReady (effect : State → State) (s : State) : Result :=
  if s.ready then .next (effect s) else .next s

/-- `raise BadCommand(w)`: `STATUS.BADCMD <- 1` and nothing else; the word is discarded and not recorded
(60_exceptions.md R96, R101). There is no return from it: the host goes on (R102). -/
def raiseBadCommand (s : State) : State := { s with badCmd := true }

/-! ### The sequencer -/

/-- What performing an action does to the outputs (R27). -/
def performAction (a : PinAction) (s : State) : State :=
  match a with
  | .setSda v => { s with sdaOut := v }
  | .setScl v => { s with sclOut := v }
  | .wait _ => s

/-- The head action is done: it is off the pending list and at the end of the trace, and no `Wait` is in
progress (R28, R29). -/
def finishAction (a : PinAction) (rest : List PinAction) (s : State) : State :=
  { s with pending := rest, waitPos := 0, trace := s.trace ++ [a] }

/-- A sequencer step: enabled when something is pending, it performs the head action whole (R28). -/
def sequencerStep (s : State) : State :=
  match s.pending with
  | [] => s
  | a :: rest => finishAction a rest (performAction a s)

/-- One cycle of `F_CLK`: a `Set` action is performed in its one cycle; a `Wait(n)` ends with its `n`-th
cycle and only counts before that (R27, R105; DEDUCED, log 10). -/
def clockCycle (s : State) : State :=
  match s.pending with
  | .wait d :: _ =>
    if s.waitPos + 1 < Config.delayCycles d then { s with waitPos := s.waitPos + 1 }
    else sequencerStep s
  | _ => sequencerStep s

/-! ### The host window -/

/-- The register at an offset from `BASE`, if there is one (R16). -/
def regAt (off : Int) : Option WindowReg :=
  if off = 0x0 then some .cmd
  else if off = 0x4 then some .status
  else if off = 0x8 then some .tuneWord
  else if off = 0xC then some .rangeSel
  else none

/-- What a host access reaches: only 32-bit accesses at the four offsets are defined. Another width or an
address that is no multiple of 4 is refused (20_memory.md R41, 60_exceptions.md R98; the width first: DESIGN
CHOICE, log 8), an address outside the window faults (DESIGN CHOICE, log 7). `BASE` is a multiple of 16, so
the offset is aligned as the address is. -/
def resolve (off : Int) (width : Nat) : Host.Outcome WindowReg Fault Refusal :=
  if width ≠ 4 then .refused (.accessWidth width)
  else if off % 4 ≠ 0 then .refused (.misalignedAddress off)
  else match regAt off with
    | some r => .next r
    | none => .fault (.outsideWindow off)

/-- The value a host read of a window register returns (R17, R18, R22, R23). -/
def readReg (r : WindowReg) (s : State) : Word :=
  match r with
  | .cmd => 0#32
  | .status => statusWord s
  | .tuneWord => s.tuneWord
  | .rangeSel => s.rangeSel.setWidth 32

/-- The host access at the head of `host` has completed. -/
def completeAccess (s : State) : State := { s with host := s.host.tail }

/-- A host read returns its value (R10). -/
def returnRead (v : Word) (s : State) : State := { s with reads := s.reads ++ [v] }

/-- The host access whose address is `addr`, as an offset from `BASE`: `MemRead(addr, 4)` (R10, R41). -/
def memRead (addr : Nat) : HostAccess := .read (addr - Config.base) 4

/-- `MemWrite(addr, 4, v)` (R10, R41). -/
def memWrite (addr : Nat) (v : Word) : HostAccess := .write (addr - Config.base) 4 v

/-! ### Turns -/

/-- Whether an access is a write to `CMD`: the one access that can stall (R17). -/
def HostAccess.isCommandWrite : HostAccess → Bool
  | .read _ _ => false
  | .write off width _ => off == 0 && width == 4

/-- Whether the host can make its next access now: there is one, reset is not asserted (R108), and it is no
command write to a busy block (R17, R46). -/
def hostEnabled (s : State) : Bool :=
  match s.host with
  | [] => false
  | a :: _ => !s.resetLine && !(a.isCommandWrite && s.busy)

/-- Whose turn it is: the head of `turns`; where that list is empty, the host's if its next access can
complete, else the sequencer's (R46: any order; DESIGN CHOICE, log 4). -/
def State.nextTurn (s : State) : Turn :=
  match s.turns with
  | t :: _ => t
  | [] => if hostEnabled s then .host else .sequencer

/-- The turn is taken. -/
def takeTurn (s : State) : State := { s with turns := s.turns.tail }

/-! ### Reset -/

/-- Reset is asserted: every piece of the block's state takes its reset value at once, the rest of `pending`
and the action in progress are dropped (70_reset_and_hazards.md R108, 10_state.md R34). What the host is
about to do and has read is not the block's. -/
def assertReset (s : State) : State :=
  { State.reset with resetLine := true, host := s.host, turns := s.turns, reads := s.reads }

/-- Reset is released: the block keeps the reset values it has (R108). -/
def releaseReset (s : State) : State := { s with resetLine := false }

end Sys2Proof.Machine
end

