-- ==== Sys2Proof/Machine/Sequences.lean ====
section
/-! DEFINITION. The pin-action sequences of 40_serial_bus.md section 1 (R66 to R71). A sequence that sends
the device address takes it as an argument; the meanings pass `Config.devAddr` (R71). -/

namespace Sys2Proof.Machine

/-- `startSeq` (R66). -/
def startSeq : List PinAction :=
  [.setSda true, .wait .start, .setScl true, .wait .start, .setSda false, .wait .start, .setScl false]

/-- `bitSeq(v)`, the bit cell (R67). -/
def bitSeq (v : Bool) : List PinAction :=
  [.setSda v, .wait .su, .setScl true, .wait .hi, .setScl false, .wait .hd]

/-- `ackSeq`, the acknowledge phase (R68). -/
def ackSeq : List PinAction :=
  [.setSda true, .wait .su, .setScl true, .wait .hi, .setScl false, .wait .hd, .setSda false]

/-- The bits of a byte in the order they are sent, most-significant first (20_memory.md R38). -/
def bitsMsbFirst (b : Byte) : List Bool :=
  [b.getLsbD 7, b.getLsbD 6, b.getLsbD 5, b.getLsbD 4, b.getLsbD 3, b.getLsbD 2, b.getLsbD 1, b.getLsbD 0]

/-- `byteSeq(b)`: the eight bit cells, then the acknowledge phase (R69). -/
def byteSeq (b : Byte) : List PinAction :=
  (bitsMsbFirst b).flatMap bitSeq ++ ackSeq

/-- `stopSeq` (R70). -/
def stopSeq : List PinAction :=
  [.setScl true, .wait .stop, .setSda true, .wait .gap]

/-- `v[15:8]` of an IC register value: the byte sent first (R39). -/
def highByte (v : Half) : Byte := v.extractLsb' 8 8

/-- `v[7:0]` of an IC register value (R39). -/
def lowByte (v : Half) : Byte := v.extractLsb' 0 8

/-- The bytes of a transaction in order: "(device address, register index, value-high, value-low)"
(R39, R71). -/
def txnBytes (dev idx : Byte) (v : Half) : List Byte := [dev, idx, highByte v, lowByte v]

/-- `txnSeq(idx, v)` for a device address: one framed 4-byte register write (R71). -/
def txnSeq (dev idx : Byte) (v : Half) : List PinAction :=
  startSeq ++ (txnBytes dev idx v).flatMap byteSeq ++ stopSeq

/-- `tw[31:16]`: the value for IC register 0 (R40). -/
def highHalf (tw : Word) : Half := tw.extractLsb' 16 16

/-- `tw[15:0]`: the value for IC register 1 (R40). -/
def lowHalf (tw : Word) : Half := tw.extractLsb' 0 16

/-- The three transactions of WRFREQ, registers 2, 1, 0 descending (41_frequency_synth.md R92, R93). -/
def freqSeq (dev : Byte) (tw : Word) (rs : Half) : List PinAction :=
  txnSeq dev 2#8 rs ++ txnSeq dev 1#8 (lowHalf tw) ++ txnSeq dev 0#8 (highHalf tw)

end Sys2Proof.Machine
end

