-- ==== Sys2Proof/Machine/FrequencySynth.lean ====
section
/-! DEFINITION. The FrequencySynthesizer commands (41_frequency_synth.md R91 to R95). -/

namespace Sys2Proof.Machine

/-- TUNE mode, band, channel (R91): latch the results; `pending` stays `[]`. -/
def execTune (mode : Mode) (band channel : Byte) (s : State) : Result :=
  whenReady (latchTuning (computeTuning mode band channel)) s

/-- WRFREQ mode, band, channel (R92): latch the results at acceptance, before any pin action (R95), and
write registers 2, 1, 0. -/
def execWrfreq (mode : Mode) (band channel : Byte) (s : State) : Result :=
  let t := computeTuning mode band channel
  whenReady (fun s => enqueue (freqSeq Config.devAddr t.word t.rangeSel) (latchTuning t s)) s

end Sys2Proof.Machine
end

