-- ==== Sys2Proof/Machine/SerialBus.lean ====
section
/-! DEFINITION. The SerialBus commands (40_serial_bus.md R77 to R80). None of them writes `TUNE_WORD`,
`RANGE_SEL` or `BADCMD` (R76), and none looks at what came before it (R75). -/

namespace Sys2Proof.Machine

/-- START (R77): `enqueue(startSeq)`. -/
def execStart (s : State) : Result := whenReady (enqueue startSeq) s

/-- STOP (R78): `enqueue(stopSeq)`. -/
def execStop (s : State) : Result := whenReady (enqueue stopSeq) s

/-- TXBYTE byte (R79): `enqueue(byteSeq(byte))`. -/
def execTxbyte (byte : Byte) (s : State) : Result := whenReady (enqueue (byteSeq byte)) s

/-- WRREG idx, value (R80): `enqueue(txnSeq(idx, value))`; `idx` is sent unchanged (R81). -/
def execWrreg (idx : Byte) (value : Half) (s : State) : Result :=
  whenReady (enqueue (txnSeq Config.devAddr idx value)) s

end Sys2Proof.Machine
end

