-- ==== Sys2Proof/Machine/Dispatch.lean ====
section
/-! DEFINITION. What an accepted command does: one arm per command. -/

namespace Sys2Proof.Machine

def exec (i : Instr) (s : State) : Host.Outcome State Fault Refusal :=
  match i with
  | .start => Sys2Proof.Machine.execStart s
  | .stop => Sys2Proof.Machine.execStop s
  | .txbyte byte => Sys2Proof.Machine.execTxbyte byte s
  | .wrreg idx value => Sys2Proof.Machine.execWrreg idx value s
  | .tune mode band channel => Sys2Proof.Machine.execTune mode band channel s
  | .wrfreq mode band channel => Sys2Proof.Machine.execWrfreq mode band channel s

end Sys2Proof.Machine
end

