-- ==== Sys2Proof/Machine/HostAccess.lean ====
section
/-! DEFINITION. The host's accesses to the window (10_state.md R16, R17; 20_memory.md R41 to R43) and what a
turn does. -/

namespace Sys2Proof.Machine

/-- A command word is accepted: in the same step it is decoded and executed, or discarded as a bad command
(R17, R100). -/
def acceptWord (w : Word) (s : State) : Result :=
  match decode w with
  | .ok i => exec i s
  | .error _ => .next (raiseBadCommand s)

/-- A write to `CMD`: accepted when the block is ready; otherwise it does not complete and stays the host's
next access (R17, R114). -/
def writeCmd (w : Word) (s : State) : Result :=
  if s.ready then acceptWord w (completeAccess s) else .next s

/-- A write to a window register: only `CMD` is writable, the others ignore it (R16, R42). -/
def writeReg (r : WindowReg) (v : Word) (s : State) : Result :=
  match r with
  | .cmd => writeCmd v s
  | .status => .next (completeAccess s)
  | .tuneWord => .next (completeAccess s)
  | .rangeSel => .next (completeAccess s)

/-- A read of a window register has no side effect on the block (R42). -/
def readAccess (r : WindowReg) (s : State) : Result :=
  .next (completeAccess (returnRead (readReg r s) s))

/-- One host access, in one step between two sequencer steps (R43). -/
def hostAccess (a : HostAccess) (s : State) : Result :=
  match a with
  | .read off width =>
    match resolve off width with
    | .next r => readAccess r s
    | .fault f => .fault f
    | .refused r => .refused r
  | .write off width v =>
    match resolve off width with
    | .next r => writeReg r v s
    | .fault f => .fault f
    | .refused r => .refused r

/-- The host's turn: its next access, if it has one (DEDUCED, log 5). -/
def hostTurn (s : State) : Result :=
  match s.host with
  | [] => .next s
  | a :: _ => hostAccess a s

/-- What a turn does. While reset is asserted only its release has an effect: nothing is pending and no host
access completes (70_reset_and_hazards.md R108, 60_exceptions.md R100; DEDUCED, logs 5 and 12). -/
def runTurn (t : Turn) (s : State) : Result :=
  match t with
  | .assertReset => .next (assertReset s)
  | .releaseReset => .next (releaseReset s)
  | .host => if s.resetLine then .next s else hostTurn s
  | .sequencer => if s.resetLine then .next s else .next (sequencerStep s)
  | .clock => if s.resetLine then .next s else .next (clockCycle s)

/-- The host's write of a command word to `CMD` (R17): offset 0, 32 bits. -/
def commandWrite (w : Word) : HostAccess := .write 0 4 w

/-- A block that can accept a command, with this command word as the host's next access and the next turn
the host's. -/
def placeCommand (w : Word) (s : State) : State :=
  { s with resetLine := false, pending := [], waitPos := 0,
           host := commandWrite w :: s.host, turns := .host :: s.turns }

end Sys2Proof.Machine
end

