-- ==== Sys2Proof/Machine/Step.lean ====
section
/-! DEFINITION. One step of SBFS: one turn of one agent (20_memory.md R46, 60_exceptions.md R100). -/

namespace Sys2Proof.Machine

/-- One step: the agent whose turn it is moves. -/
def step (s : State) : Host.Outcome State Fault Refusal := runTurn s.nextTurn (takeTurn s)

/-- `s` with the command word `w` where the next step takes it: SBFS has no program counter (R15), its
commands arrive as the host's writes to `CMD` (DESIGN CHOICE, log 13). -/
def State.withFetchWord (s : State) (nbits w : Nat) : State :=
  placeCommand (BitVec.ofNat 32 (w % 2 ^ nbits)) s

end Sys2Proof.Machine
end

