-- ==== Sys2Proof/WellFormed.lean ====
section
/-! DEFINITION. Which commands and which assembler lines are well formed. -/

namespace Sys2Proof

/-- A number that a field of `width` bits holds (R62: an operand out of its range is refused). -/
def fitsField (width v : Nat) : Bool := decide (v < 2 ^ width)

/-- The operand fields of a command with their widths (R55, R56): the width first, then the value. -/
def Instr.operandFields : Instr → List (Nat × Nat)
  | .start => []
  | .stop => []
  | .txbyte b => [(8, b.toNat)]
  | .wrreg idx value => [(8, idx.toNat), (16, value.toNat)]
  | .tune _ band channel => [(8, band.toNat), (8, channel.toNat)]
  | .wrfreq _ band channel => [(8, band.toNat), (8, channel.toNat)]

/-- A command is well formed when every operand fits its field. The operands' types already have the
fields' widths and "no operand value makes a command bad" (R56), so every `Instr` is well formed
(`Instr.wellFormed_all`); the check that can fail is the assembler's. -/
def Instr.wellFormed (i : Instr) : Bool :=
  i.operandFields.all (fun f => fitsField f.1 f.2)

/-- The ranges of R62: `byte`, `idx`, `band` and `channel` are 0..255, `value` is 0..65535; "an assembler
refuses a value out of its range". XFER's operands go into a TXBYTE each (R64), so they have WRREG's
ranges. -/
def AsmLine.wellFormed : AsmLine → Bool
  | .start => true
  | .stop => true
  | .txbyte byte => fitsField 8 byte
  | .wrreg idx value => fitsField 8 idx && fitsField 16 value
  | .tune _ band channel => fitsField 8 band && fitsField 8 channel
  | .wrfreq _ band channel => fitsField 8 band && fitsField 8 channel
  | .xfer idx value => fitsField 8 idx && fitsField 16 value

end Sys2Proof
end

