-- ==== Sys2Proof/Machine/Assembler.lean ====
section
/-! DEFINITION. The assembler's view of the commands (30_encoding.md section 5): the words of a command line
(R62), XFER (R64), the informative host macro REGPROG (R65), and the reading of a line's text (R62). The
block itself sees only the words. -/

namespace Sys2Proof.Machine

/-- The six commands of XFER for a device address (R64). -/
def xferCommands (dev idx : Byte) (value : Half) : List Instr :=
  [.start, .txbyte dev, .txbyte idx, .txbyte (highByte value), .txbyte (lowByte value), .stop]

/-- The commands of REGPROG (R65): `WRREG i, tmpl[i]` for `i = 4, 5, ..., 23` in ascending order, then
`WRFREQ mode, band, channel`. The template is the host's. -/
def regprogCommands (tmpl : Nat → Half) (mode : Mode) (band channel : Byte) : List Instr :=
  (List.range' 4 20).map (fun i => .wrreg (BitVec.ofNat 8 i) (tmpl i)) ++ [.wrfreq mode band channel]

/-- The commands of a well-formed line (R62, R64). -/
def lineCommands (dev : Byte) : AsmLine → List Instr
  | .start => [.start]
  | .stop => [.stop]
  | .txbyte byte => [.txbyte (BitVec.ofNat 8 byte)]
  | .wrreg idx value => [.wrreg (BitVec.ofNat 8 idx) (BitVec.ofNat 16 value)]
  | .tune mode band channel => [.tune mode (BitVec.ofNat 8 band) (BitVec.ofNat 8 channel)]
  | .wrfreq mode band channel => [.wrfreq mode (BitVec.ofNat 8 band) (BitVec.ofNat 8 channel)]
  | .xfer idx value => xferCommands dev (BitVec.ofNat 8 idx) (BitVec.ofNat 16 value)

/-- The words of a line; none for a line with an operand out of its range (R62). -/
def assemble (dev : Byte) (l : AsmLine) : Option (List Word) :=
  if l.wellFormed then some ((lineCommands dev l).map encode) else none

/-! ### The text of a line (DESIGN CHOICE, log 16) -/

/-- A decimal digit's value. -/
def decDigit (c : Char) : Option Nat :=
  if '0' ≤ c ∧ c ≤ '9' then some (c.toNat - '0'.toNat) else none

/-- A hexadecimal digit's value. -/
def hexDigit (c : Char) : Option Nat :=
  if '0' ≤ c ∧ c ≤ '9' then some (c.toNat - '0'.toNat)
  else if 'a' ≤ c ∧ c ≤ 'f' then some (c.toNat - 'a'.toNat + 10)
  else if 'A' ≤ c ∧ c ≤ 'F' then some (c.toNat - 'A'.toNat + 10)
  else none

/-- The number that digits of a radix stand for, after a value already read. -/
def digitsFrom (radix : Nat) (digit : Char → Option Nat) : Nat → List Char → Option Nat
  | acc, [] => some acc
  | acc, c :: cs =>
    match digit c with
    | some d => digitsFrom radix digit (radix * acc + d) cs
    | none => none

/-- A numeral: decimal, or hexadecimal after `0x` (R62). -/
def numeral : List Char → Option Nat
  | [] => none
  | '0' :: 'x' :: c :: cs => digitsFrom 16 hexDigit 0 (c :: cs)
  | c :: cs => digitsFrom 10 decDigit 0 (c :: cs)

/-- The tokens of a line: words between blanks and commas; a comma is a token of its own. `word` holds the
characters of the current word, last first. -/
def tokens : List Char → List Char → List (List Char)
  | word, [] => if word.isEmpty then [] else [word.reverse]
  | word, c :: cs =>
    let before := if word.isEmpty then [] else [word.reverse]
    if c = ' ' ∨ c = '\t' then before ++ tokens [] cs
    else if c = ',' then before ++ [','] :: tokens [] cs
    else tokens (c :: word) cs

/-- A mode token: `rx` is `M = 0`, `tx` is `M = 1` (R62). -/
def modeToken (t : List Char) : Option Mode :=
  if t = ['r', 'x'] then some .receive
  else if t = ['t', 'x'] then some .transmit
  else none

/-- The mnemonics of R62 and R64, in lower case and in upper case. -/
def mnemonicToken (t : List Char) : Option String :=
  (["START", "STOP", "TXBYTE", "WRREG", "TUNE", "WRFREQ", "XFER"].find?
    (fun m => t == m.toList || t == m.toList.map Char.toLower))

/-- A line with no operand. -/
def parseNone (m : String) : Option AsmLine :=
  if m = "START" then some .start else if m = "STOP" then some .stop else none

/-- A line with one numeral. -/
def parseOne (m : String) (a : Nat) : Option AsmLine :=
  if m = "TXBYTE" then some (.txbyte a) else none

/-- A line with two numerals. -/
def parseTwo (m : String) (a b : Nat) : Option AsmLine :=
  if m = "WRREG" then some (.wrreg a b) else if m = "XFER" then some (.xfer a b) else none

/-- A line with a mode and two numerals. -/
def parseTune (m : String) (mode : Mode) (a b : Nat) : Option AsmLine :=
  if m = "TUNE" then some (.tune mode a b) else if m = "WRFREQ" then some (.wrfreq mode a b) else none

/-- The command line a text is (R62); none for a text that is no command line. The operands' ranges are
checked by `assemble`. -/
def parseLine (text : List Char) : Option AsmLine :=
  match tokens [] text with
  | [m] => (mnemonicToken m).bind parseNone
  | [m, a] => (mnemonicToken m).bind fun m => (numeral a).bind (parseOne m)
  | [m, a, [','], b] =>
    (mnemonicToken m).bind fun m => (numeral a).bind fun a => (numeral b).bind (parseTwo m a)
  | [m, a, [','], b, [','], c] =>
    (mnemonicToken m).bind fun m => (modeToken a).bind fun mode =>
      (numeral b).bind fun b => (numeral c).bind (parseTune m mode b)
  | _ => none

end Sys2Proof.Machine
end

