-- ==== Sys2Proof/Machine/Timing.lean ====
section
/-! DEFINITION. Durations in `F_CLK` cycles (10_state.md R27; 40_serial_bus.md R72; 70_reset_and_hazards.md
R121) and the nominal time of the waits. -/

namespace Sys2Proof.Machine

/-- The cycles an action occupies: one for a `Set`, `n` for `Wait(n)` (R27). -/
def PinAction.cycles : PinAction → Nat
  | .setSda _ => 1
  | .setScl _ => 1
  | .wait d => Config.delayCycles d

/-- The cycles a list of actions occupies. -/
def duration (as : List PinAction) : Nat := (as.map PinAction.cycles).sum

/-- `S = N_SU + N_HI + N_HD` (R72). -/
def bitDelays : Nat :=
  Config.delayCycles .su + Config.delayCycles .hi + Config.delayCycles .hd

/-- The cycles of one transaction (R72). -/
def txnCycles : Nat :=
  118 + 3 * Config.delayCycles .start + 36 * bitDelays + Config.delayCycles .stop + Config.delayCycles .gap

/-- Whether an action is a `Set` action (R72). -/
def PinAction.isSet : PinAction → Bool
  | .setSda _ => true
  | .setScl _ => true
  | .wait _ => false

/-- How many waits of a list are of one delay. -/
def waitsOf (d : Delay) (as : List PinAction) : Nat := as.count (.wait d)

/-- The nominal microseconds of the waits of a list, the `N_START` waits (which have no nominal value) and
the `Set` actions not counted (R121). -/
def nominalMicros (as : List PinAction) : Nat :=
  (as.map fun
    | .wait d => d.nominalMicros.getD 0
    | .setSda _ => 0
    | .setScl _ => 0).sum

end Sys2Proof.Machine
end

