-- ==== Sys2Proof/Machine/Line.lean ====
section
/-! DEFINITION. What the two output lines show (10_state.md R24, R29; 40_serial_bus.md R73, R74): the levels
after a list of pin actions, and the line conditions it produces. Nothing here is read by the block (R25);
the claims about the line use it (DESIGN CHOICE, log 18). -/

namespace Sys2Proof.Machine

/-- The levels of the two outputs: `SDA_OUT`, `SCL_OUT`. -/
structure Levels where
  sda : Bool
  scl : Bool
  deriving DecidableEq, Repr

/-- The reset levels, an idle bus (R34, R111): data released, clock high. -/
def Levels.idle : Levels := { sda := true, scl := true }

/-- The levels after a START or a TXBYTE: both outputs 0 (R73). -/
def Levels.bothLow : Levels := { sda := false, scl := false }

/-- The levels after one action (R27). -/
def PinAction.levelsAfter (l : Levels) : PinAction → Levels
  | .setSda v => { l with sda := v }
  | .setScl v => { l with scl := v }
  | .wait _ => l

/-- The levels after a list of actions. -/
def levelsAfter (l : Levels) (as : List PinAction) : Levels := as.foldl PinAction.levelsAfter l

/-- What the radio IC sees of a list of actions that begins at given levels: the levels each action drives, with
the cycles it holds them (10_state.md R29, R30). -/
def waveform (l : Levels) : List PinAction → List (Levels × Nat)
  | [] => []
  | a :: as => (a.levelsAfter l, a.cycles) :: waveform (a.levelsAfter l) as

/-- The levels a list of actions shows in each of its cycles, from the first on: each level of the waveform as
often as it has cycles (R29). -/
def levelsInCycles (l : Levels) (as : List PinAction) : List Levels :=
  (waveform l as).flatMap fun p => List.replicate p.2 p.1

/-- A condition on the line, as the line strings of 95_test_vectors.md write them: `S`, `P`, or the data
level at a rising clock edge. -/
inductive LineEvent where
  | start           -- `S`: the data output falls while the clock output is 1
  | stop            -- `P`: the data output rises while the clock output is 1
  | bit (v : Bool)  -- a rising clock edge with the data output at `v`
  deriving DecidableEq, Repr

/-- The line condition an action produces, if any. A `Set` action whose value equals the current output
produces no edge (R27). -/
def PinAction.lineEvent (l : Levels) : PinAction → List LineEvent
  | .setSda v =>
    if l.scl && l.sda && !v then [.start]
    else if l.scl && !l.sda && v then [.stop]
    else []
  | .setScl v => if !l.scl && v then [.bit l.sda] else []
  | .wait _ => []

/-- The line conditions of a list of actions that begins at given levels. -/
def lineEvents (l : Levels) : List PinAction → List LineEvent
  | [] => []
  | a :: as => a.lineEvent l ++ lineEvents (a.levelsAfter l) as

end Sys2Proof.Machine
end

