-- ==== Sys2Proof/Safety.lean ====
section
/-! DEFINITION. The terms in which claims about runs are made: what is left of a command, what two states of
the block have in common, which host accesses are defined, and the invariant of the machine. -/

namespace Sys2Proof.Machine

/-- The pin actions a command queues at acceptance (40_serial_bus.md R77 to R80, 41_frequency_synth.md R91
and R92). -/
def actionsOf : Instr → List PinAction
  | .start => startSeq
  | .stop => stopSeq
  | .txbyte byte => byteSeq byte
  | .wrreg idx value => txnSeq Config.devAddr idx value
  | .tune _ _ _ => []
  | .wrfreq mode band channel =>
    freqSeq Config.devAddr (computeTuning mode band channel).word (computeTuning mode band channel).rangeSel

/-- The levels the block drives now (10_state.md R21, R24). -/
def State.levels (s : State) : Levels := { sda := s.sdaOut, scl := s.sclOut }

/-- Every pin action the block is committed to since reset: those performed, then those pending. -/
def State.committed (s : State) : List PinAction := s.trace ++ s.pending

/-- The block's part of two states is the same: they differ at most in what the host is about to do, whose
turn it is, and what the host has read. -/
def sameBlock (s t : State) : Prop :=
  t = { s with host := t.host, turns := t.turns, reads := t.reads }

/-- Every piece of the block's state has its reset value (10_state.md R34), the reset input aside. -/
def State.blockReset (s : State) : Prop :=
  sameBlock { State.reset with resetLine := s.resetLine } s

/-- The state after the sequencer has performed everything that is pending (R28). -/
def drained (s : State) : State :=
  { s with
    sdaOut := (levelsAfter s.levels s.pending).sda
    sclOut := (levelsAfter s.levels s.pending).scl
    pending := []
    waitPos := 0
    trace := s.trace ++ s.pending }

/-- A host access the spec defines (20_memory.md R41). -/
def HostAccess.defined : HostAccess → Bool
  | .read off width => width == 4 && (regAt off).isSome
  | .write off width _ => width == 4 && (regAt off).isSome

/-- A host that makes only defined accesses. -/
def State.hostDefined (s : State) : Bool := s.host.all HostAccess.defined

/-- `s` with the host about to write these commands to `CMD`, one after another, and with no turn prescribed. -/
def withCommands (is : List Instr) (s : State) : State :=
  { s with host := is.map (fun i => commandWrite (encode i)), turns := [] }

/-- The cycles until everything pending is done: those of the head `Wait` that have gone by do not count again. -/
def cyclesLeft (s : State) : Nat := duration s.pending - s.waitPos

/-- The pin actions a host access queues when it completes: a command word's, and none for any other access
or a bad word (R17, R60). -/
def HostAccess.queued : HostAccess → List PinAction
  | .read _ _ => []
  | .write off width v =>
    if off = 0 ∧ width = 4 then
      match decode v with
      | .ok i => actionsOf i
      | .error _ => []
    else []

/-- The next step is the host's, reset is not asserted, and `a` is the host's next access, before `rest`. -/
def State.hostNext (s : State) (a : HostAccess) (rest : List HostAccess) : Prop :=
  s.resetLine = false ∧ s.nextTurn = .host ∧ s.host = a :: rest

/-- `s` when its turn is taken and the host is left with `rest`. -/
def State.afterAccess (s : State) (rest : List HostAccess) : State :=
  { s with host := rest, turns := s.turns.tail }

/-- `k` steps of the machine, stopping at the first fault or refusal: `Host.Core.run` of `Sys2Proof.core`
(`run_eq_core_run`), written over the machine's own types. -/
def run : Nat → State → Result
  | 0, s => .next s
  | k + 1, s =>
    match step s with
    | .next t => run k t
    | .fault f => .fault f
    | .refused r => .refused r

/-- The line conditions of a byte: its bits, most-significant first, then the released acknowledge clock
(20_memory.md R38, 40_serial_bus.md R68). -/
def byteEvents (b : Byte) : List LineEvent :=
  (List.range 8).map (fun k => .bit (b.getLsbD (7 - k))) ++ [.bit true]

/-- The invariant of SBFS. -/
structure Invariant (s : State) : Prop where
  /-- the outputs are at the levels the trace gives from the reset levels (10_state.md R29) -/
  traceLevels : levelsAfter .idle s.trace = s.levels
  /-- what is pending ends with both outputs 0 or both 1, so an idle block is in one of these (R73, R74) -/
  endLevels : levelsAfter s.levels s.pending = .bothLow ∨ levelsAfter s.levels s.pending = .idle
  /-- the position inside a `Wait` is before its end; there is none where no `Wait` is in progress (R32) -/
  waitInside : s.waitPos = 0 ∨ ∃ d rest, s.pending = .wait d :: rest ∧ s.waitPos < Config.delayCycles d
  /-- the sequencer works on one command: what it has performed of the command ends the trace (R28, R47) -/
  oneCommand : s.pending = [] ∨ ∃ i earlier done, s.trace = earlier ++ done ∧ done ++ s.pending = actionsOf i
  /-- while reset is asserted every piece of state has its reset value (70_reset_and_hazards.md R108) -/
  inReset : s.resetLine = true → s.blockReset

end Sys2Proof.Machine
end

