-- ==== Sys2Proof/Certificates/Slice0/Obligations.lean ====
section
/-! DEFINITION. The statements about SBFS that are put to the provers. -/

open Sys2Proof Sys2Proof.Machine

/-! ### Encoding -/

/-- 30_encoding.md R55, R63 and 95_test_vectors.md section 2.1: words written out bit by bit decode to the
commands they stand for. -/
def Obligations.WrittenOutWordsDecode : Prop :=
  decode 0b00010000000000000000000000000000#32 = .ok .start ∧
  decode 0b00100000000000000000000000000000#32 = .ok .stop ∧
  decode 0b00110000000000000000000010100101#32 = .ok (.txbyte 0xA5#8) ∧
  decode 0b01000000000100110001001000110100#32 = .ok (.wrreg 19#8 0x1234#16) ∧
  decode 0b01010001000000000000001000001010#32 = .ok (.tune .transmit 2#8 10#8) ∧
  decode 0b01100000000000000000100100000111#32 = .ok (.wrfreq .receive 9#8 7#8)

/-- Decode and encode agree: every command, with every operand at every value, is read back from its word
(30_encoding.md R55, R56, R59). -/
def Obligations.DecodeOfEncodeIsTheCommand : Prop :=
  ∀ i : Instr, i.wellFormed = true → decode (encode i) = .ok i

/-- A word that decodes to a command is that command's only word: no bit of a command word is ignored
(30_encoding.md R55, R59). -/
def Obligations.EncodeOfDecodedWordIsTheWord : Prop :=
  ∀ (w : Word) (i : Instr), decode w = .ok i → encode i = w

/-- 30_encoding.md R59 with the rows of R58: a word decodes to a command exactly when it has the row's
pattern under the row's mask; at most one row matches; and the operands are the fields the decoder names. -/
def Obligations.DecodeFollowsTheOpcodeMap : Prop :=
  (∀ w : Word,
    (w &&& 0xFFFFFFFF#32 = 0x10000000#32 ↔ decode w = .ok .start) ∧
    (w &&& 0xFFFFFFFF#32 = 0x20000000#32 ↔ decode w = .ok .stop) ∧
    (w &&& 0xFFFFFF00#32 = 0x30000000#32 ↔ decode w = .ok (.txbyte (w.setWidth 8))) ∧
    (w &&& 0xFF000000#32 = 0x40000000#32 ↔ decode w = .ok (.wrreg ((w >>> 16).setWidth 8) (w.setWidth 16))) ∧
    (w &&& 0xFEFF0000#32 = 0x50000000#32 ↔
      decode w = .ok (.tune (if w.getLsbD 24 then .transmit else .receive)
        ((w >>> 8).setWidth 8) (w.setWidth 8))) ∧
    (w &&& 0xFEFF0000#32 = 0x60000000#32 ↔
      decode w = .ok (.wrfreq (if w.getLsbD 24 then .transmit else .receive)
        ((w >>> 8).setWidth 8) (w.setWidth 8))) ∧
    ((∃ e, decode w = .error e) ↔
      w &&& 0xFFFFFFFF#32 ≠ 0x10000000#32 ∧ w &&& 0xFFFFFFFF#32 ≠ 0x20000000#32 ∧
      w &&& 0xFFFFFF00#32 ≠ 0x30000000#32 ∧ w &&& 0xFF000000#32 ≠ 0x40000000#32 ∧
      w &&& 0xFEFF0000#32 ≠ 0x50000000#32 ∧ w &&& 0xFEFF0000#32 ≠ 0x60000000#32)) ∧
  List.Pairwise (fun r r' : Word × Word => ∀ w : Word, ¬(w &&& r.1 = r.2 ∧ w &&& r'.1 = r'.2))
    [(0xFFFFFFFF#32, 0x10000000#32), (0xFFFFFFFF#32, 0x20000000#32), (0xFFFFFF00#32, 0x30000000#32),
      (0xFF000000#32, 0x40000000#32), (0xFEFF0000#32, 0x50000000#32), (0xFEFF0000#32, 0x60000000#32)]

/-- 30_encoding.md R60 and 60_exceptions.md R96: which words are bad, and that accepting one sets `BADCMD`
and changes nothing else of the block. The word 0x00000000 is bad. -/
def Obligations.BadWordsOnlySetTheFlag : Prop :=
  (∀ w : Word, (∃ e, decode w = .error e) ↔
    (w.toNat / 2 ^ 28 = 0 ∨ 7 ≤ w.toNat / 2 ^ 28 ∨
      ((w.toNat / 2 ^ 28 = 1 ∨ w.toNat / 2 ^ 28 = 2) ∧ w.toNat % 2 ^ 28 ≠ 0) ∨
      (w.toNat / 2 ^ 28 = 3 ∧ w.toNat / 2 ^ 8 % 2 ^ 20 ≠ 0) ∨
      (w.toNat / 2 ^ 28 = 4 ∧ w.toNat / 2 ^ 24 % 2 ^ 4 ≠ 0) ∨
      ((w.toNat / 2 ^ 28 = 5 ∨ w.toNat / 2 ^ 28 = 6) ∧
        (w.toNat / 2 ^ 25 % 2 ^ 3 ≠ 0 ∨ w.toNat / 2 ^ 16 % 2 ^ 8 ≠ 0)))) ∧
  (∀ (s : State) (w : Word) (rest : List HostAccess),
    s.hostNext (memWrite Config.base w) rest → s.pending = [] → (∃ e, decode w = .error e) →
      step s = .next { s.afterAccess rest with badCmd := true }) ∧
  (∃ e, decode 0x00000000#32 = .error e)

/-- The assembler's words (30_encoding.md R62, R64): each line's word is the opcode and the operands at their
places, and a value out of its range is refused. XFER is the six command words of R64. -/
def Obligations.AssembledWordsAreTheTables : Prop :=
  ∀ dev : Byte,
    assemble dev .start = some [0x10000000#32] ∧
    assemble dev .stop = some [0x20000000#32] ∧
    (∀ byte, assemble dev (.txbyte byte) =
      if byte ≤ 255 then some [BitVec.ofNat 32 (0x30000000 + byte)] else none) ∧
    (∀ idx value, assemble dev (.wrreg idx value) =
      if idx ≤ 255 ∧ value ≤ 65535 then some [BitVec.ofNat 32 (0x40000000 + idx * 2 ^ 16 + value)]
      else none) ∧
    (∀ mode band channel, assemble dev (.tune mode band channel) =
      if band ≤ 255 ∧ channel ≤ 255 then
        some [BitVec.ofNat 32 (0x50000000 + (bitOfMode mode).toNat * 2 ^ 24 + band * 2 ^ 8 + channel)]
      else none) ∧
    (∀ mode band channel, assemble dev (.wrfreq mode band channel) =
      if band ≤ 255 ∧ channel ≤ 255 then
        some [BitVec.ofNat 32 (0x60000000 + (bitOfMode mode).toNat * 2 ^ 24 + band * 2 ^ 8 + channel)]
      else none) ∧
    (∀ idx value, assemble dev (.xfer idx value) =
      if idx ≤ 255 ∧ value ≤ 65535 then
        some [0x10000000#32, BitVec.ofNat 32 (0x30000000 + dev.toNat), BitVec.ofNat 32 (0x30000000 + idx),
          BitVec.ofNat 32 (0x30000000 + value / 2 ^ 8), BitVec.ofNat 32 (0x30000000 + value % 2 ^ 8),
          0x20000000#32]
      else none)

/-! ### A step runs the accepted command -/

/-- 10_state.md R17: when the host's next access is a write to `CMD` of a word that decodes to `i`, on a block
that is not busy, the step is `exec` of `i`, the access completed and the turn taken. -/
def Obligations.StepRunsTheAcceptedCommand : Prop :=
  ∀ (s : State) (w : Word) (i : Instr) (rest : List HostAccess),
    s.hostNext (memWrite Config.base w) rest → s.pending = [] → decode w = .ok i →
      step s = exec i (s.afterAccess rest)

/-- The model's own (log 13): a word placed where the next step takes it is the command the next step runs. -/
def Obligations.StepRunsThePlacedCommand : Prop :=
  ∀ (s : State) (w : Nat) (i : Instr), decodeTableWord 32 w = some i →
    step (s.withFetchWord 32 w) = exec i { s with resetLine := false, pending := [], waitPos := 0 }

/-! ### SerialBus commands -/

/-- START (40_serial_bus.md R77) completes and queues the start sequence of R66; nothing else changes. -/
def Obligations.StartQueuesTheStartSequence : Prop :=
  ∀ s : State, s.resetLine = false → s.pending = [] →
    exec .start s = .next { s with pending :=
      [.setSda true, .wait .start, .setScl true, .wait .start, .setSda false, .wait .start, .setScl false] }

/-- STOP (40_serial_bus.md R78) completes and queues the stop sequence of R70; nothing else changes. The
sequence shows a stop condition exactly when data is low when it begins. -/
def Obligations.StopQueuesTheStopSequence : Prop :=
  (∀ s : State, s.resetLine = false → s.pending = [] →
    exec .stop s = .next { s with pending := [.setScl true, .wait .stop, .setSda true, .wait .gap] }) ∧
  (∀ l : Levels, LineEvent.stop ∈ lineEvents l [.setScl true, .wait .stop, .setSda true, .wait .gap] ↔
    l.sda = false)

/-- TXBYTE (40_serial_bus.md R79) completes and queues the eight bit cells of R67, bit 7 first, and the
acknowledge phase (R69); nothing else changes. -/
def Obligations.TxbyteQueuesTheByteSequence : Prop :=
  ∀ (byte : Byte) (s : State), s.resetLine = false → s.pending = [] →
    exec (.txbyte byte) s = .next { s with pending :=
      ([7, 6, 5, 4, 3, 2, 1, 0].flatMap fun k =>
        [.setSda (byte.getLsbD k), .wait .su, .setScl true, .wait .hi, .setScl false, .wait .hd]) ++
      [.setSda true, .wait .su, .setScl true, .wait .hi, .setScl false, .wait .hd, .setSda false] }

/-- WRREG (40_serial_bus.md R80) completes and queues one whole transaction (R71): start, the device address,
the index unchanged (R81), value high, value low, stop; nothing else changes. -/
def Obligations.WrregQueuesOneTransaction : Prop :=
  ∀ (idx : Byte) (value : Half) (s : State), s.resetLine = false → s.pending = [] →
    exec (.wrreg idx value) s = .next { s with pending :=
      (startSeq ++ byteSeq Config.devAddr ++ byteSeq idx ++ byteSeq ((value >>> 8).setWidth 8) ++
        byteSeq (value.setWidth 8) ++ stopSeq) }

/-- The model's choice (log 11) for a command given to a block that cannot accept it (10_state.md R17,
70_reset_and_hazards.md R108): it waits, and nothing changes. -/
def Obligations.CommandsWaitOnABusyBlock : Prop :=
  ∀ (i : Instr) (s : State), (s.pending ≠ [] ∨ s.resetLine = true) → exec i s = .next s

/-! ### FrequencySynthesizer commands -/

/-- TUNE (41_frequency_synth.md R91) completes and latches the function of R83; nothing is queued and nothing
else changes. -/
def Obligations.TuneLatchesTheTuning : Prop :=
  ∀ (mode : Mode) (band channel : Byte) (s : State), s.resetLine = false → s.pending = [] →
    ∃ e : BandEntry,
      e = (if h : band.toNat < 8 then Config.bandTable ⟨band.toNat, h⟩ else Config.bandTable 7) ∧
      exec (.tune mode band channel) s = .next { s with
        tuneWord := (if mode = .transmit then e.txBase else e.rxBase) +
          e.step * BitVec.ofNat 32 (channel.toNat / 2),
        rangeSel := e.rangeSel }

/-- WRFREQ (41_frequency_synth.md R92) completes, latches what TUNE would latch, and queues the transactions
of IC registers 2, 1 and 0: the range selector, the tuning word's low half, its high half (20_memory.md R40);
nothing else changes. -/
def Obligations.WrfreqLatchesAndQueuesThreeTransactions : Prop :=
  ∀ (mode : Mode) (band channel : Byte) (s : State), s.resetLine = false → s.pending = [] →
    ∃ (e : BandEntry) (tw : Word),
      e = (if h : band.toNat < 8 then Config.bandTable ⟨band.toNat, h⟩ else Config.bandTable 7) ∧
      tw = (if mode = .transmit then e.txBase else e.rxBase) +
        e.step * BitVec.ofNat 32 (channel.toNat / 2) ∧
      exec (.wrfreq mode band channel) s = .next { s with
        tuneWord := tw,
        rangeSel := e.rangeSel,
        pending := txnSeq Config.devAddr 2#8 e.rangeSel ++ txnSeq Config.devAddr 1#8 (tw.setWidth 16) ++
          txnSeq Config.devAddr 0#8 ((tw >>> 16).setWidth 16) }

/-- 41_frequency_synth.md R86: over every band table the tuning word is the low 32 bits of the exact sum; and
where the sum cannot exceed 32 bits for the source's channels, it is the exact sum for channels 0 to 99. No
overflow is reported: TUNE leaves `STATUS` as it is. -/
def Obligations.TuningWordIsTheSumModulo32Bits : Prop :=
  ∀ (table : BandTable) (mode : Mode) (band channel : Byte),
    ∃ e : BandEntry, e = table (effectiveBand band) ∧
      (tuningIn table mode band channel).word.toNat =
        ((baseOf mode e).toNat + e.step.toNat * (channel.toNat / 2)) % 2 ^ 32 ∧
      ((∀ (b : Fin numBands) (m : Mode), (baseOf m (table b)).toNat + (table b).step.toNat * 49 < 2 ^ 32) →
        channel.toNat ≤ 99 →
        (tuningIn table mode band channel).word.toNat =
          (baseOf mode e).toNat + e.step.toNat * (channel.toNat / 2)) ∧
      ∀ s : State, s.resetLine = false → s.pending = [] →
        ∃ t, exec (.tune mode band channel) s = .next t ∧ statusWord t = statusWord s

/-- 41_frequency_synth.md R84: a band operand of 8 or more does what entry 7 does, for the tuning word and the
range selector, without a flag; a smaller one uses its own entry. -/
def Obligations.BandsOutOfRangeFallBackToTheLast : Prop :=
  ∀ (table : BandTable) (mode : Mode) (band channel : Byte),
    (8 ≤ band.toNat →
      tuningIn table mode band channel = tuningIn table mode 7#8 channel ∧
      (∀ s : State, exec (.tune mode band channel) s = exec (.tune mode 7#8 channel) s ∧
        exec (.wrfreq mode band channel) s = exec (.wrfreq mode 7#8 channel) s ∧
        ∀ t, exec (.tune mode band channel) s = .next t ∨ exec (.wrfreq mode band channel) s = .next t →
          t.badCmd = s.badCmd)) ∧
    (∀ h : band.toNat < 8, (tuningIn table mode band channel).rangeSel = (table ⟨band.toNat, h⟩).rangeSel ∧
      (channel.toNat < 2 → (tuningIn table mode band channel).word = baseOf mode (table ⟨band.toNat, h⟩)))

/-- 41_frequency_synth.md R85: `half` is the channel shifted right by one, so channels `2k` and `2k + 1` give the
same `half = k`, for every 8-bit channel. -/
def Obligations.ChannelsCountByHalves : Prop :=
  (∀ channel : Byte, (halfChannel channel).toNat = channel.toNat / 2) ∧
  ∀ k : Nat, k ≤ 127 → halfChannel (BitVec.ofNat 8 (2 * k)) = BitVec.ofNat 32 k ∧
    halfChannel (BitVec.ofNat 8 (2 * k + 1)) = BitVec.ofNat 32 k

/-- Half-step equivalence (41_frequency_synth.md section 1, which the spec derives; 95_test_vectors.md L1.2): an odd
channel is tuned as the even one below it, over every band table and for both commands. -/
def Obligations.OddChannelsTuneAsTheEvenOneBelow : Prop :=
  ∀ (mode : Mode) (band : Byte) (k : Nat), k ≤ 127 →
    (∀ table : BandTable, tuningIn table mode band (BitVec.ofNat 8 (2 * k + 1)) =
      tuningIn table mode band (BitVec.ofNat 8 (2 * k))) ∧
    (∀ s : State,
      exec (.tune mode band (BitVec.ofNat 8 (2 * k + 1))) s = exec (.tune mode band (BitVec.ofNat 8 (2 * k))) s ∧
      exec (.wrfreq mode band (BitVec.ofNat 8 (2 * k + 1))) s =
        exec (.wrfreq mode band (BitVec.ofNat 8 (2 * k))) s)

/-- 41_frequency_synth.md R87: the range selector depends on the effective band only. -/
def Obligations.RangeSelectorDependsOnTheBandOnly : Prop :=
  ∀ (table : BandTable) (mode mode' : Mode) (band channel channel' : Byte),
    (tuningIn table mode band channel).rangeSel = (table (effectiveBand band)).rangeSel ∧
    (tuningIn table mode band channel).rangeSel = (tuningIn table mode' band channel').rangeSel

/-- 41_frequency_synth.md R95: the host reads of the results right after an accepted TUNE or WRFREQ return the
new values, for WRFREQ while the block is busy and before any pin action. -/
def Obligations.ResultsAreReadableAtOnce : Prop :=
  ∀ (s : State) (mode : Mode) (band channel : Byte), s.resetLine = false → s.pending = [] →
    s.turns = List.replicate 4 .host →
    (s.host = [memWrite Config.base (encode (.wrfreq mode band channel)), memRead (Config.base + 8),
        memRead (Config.base + 12), memRead (Config.base + 4)] →
      ∃ t status, run 4 s = .next t ∧ status.getLsbD 0 = true ∧ t.trace = s.trace ∧
        t.reads = s.reads ++ [(computeTuning mode band channel).word,
          (computeTuning mode band channel).rangeSel.setWidth 32, status]) ∧
    (s.host = [memWrite Config.base (encode (.tune mode band channel)), memRead (Config.base + 8),
        memRead (Config.base + 12), memRead (Config.base + 4)] →
      ∃ t status, run 4 s = .next t ∧ status.getLsbD 0 = false ∧ t.trace = s.trace ∧
        t.reads = s.reads ++ [(computeTuning mode band channel).word,
          (computeTuning mode band channel).rangeSel.setWidth 32, status])

/-- 10_state.md R22 and R23: a step changes the result registers only by accepting a TUNE or a WRFREQ, which
leaves that command's results, or by reset, which leaves 0. -/
def Obligations.ResultsChangeOnlyByTuneWrfreqOrReset : Prop :=
  ∀ s t : State, step s = .next t →
    (t.tuneWord = s.tuneWord ∧ t.rangeSel = s.rangeSel) ∨
    (s.nextTurn = .assertReset ∧ t.tuneWord = 0#32 ∧ t.rangeSel = 0#16) ∨
    (∃ w rest mode band channel, s.hostNext (memWrite Config.base w) rest ∧ s.pending = [] ∧
      (decode w = .ok (.tune mode band channel) ∨ decode w = .ok (.wrfreq mode band channel)) ∧
      t.tuneWord = (computeTuning mode band channel).word ∧
      t.rangeSel = (computeTuning mode band channel).rangeSel)

/-! ### The host window -/

/-- 10_state.md R18: a read of `STATUS` returns its fields and changes nothing of the block; after reset it is
0x0000000C; a host write to it changes nothing of the block. -/
def Obligations.StatusReadsItsFields : Prop :=
  (∀ (s : State) (rest : List HostAccess), s.hostNext (memRead (Config.base + 4)) rest →
    ∃ v : Word, step s = .next { s.afterAccess rest with reads := s.reads ++ [v] } ∧
      (v.getLsbD 0 = true ↔ s.pending ≠ []) ∧ v.getLsbD 1 = s.badCmd ∧ v.getLsbD 2 = s.sdaOut ∧
      v.getLsbD 3 = s.sclOut ∧ v >>> 4 = 0#32) ∧
  statusWord State.reset = 0x0000000C#32 ∧
  (∀ (s : State) (v : Word) (rest : List HostAccess), s.hostNext (memWrite (Config.base + 4) v) rest →
    step s = .next (s.afterAccess rest))

/-- 10_state.md R16: the four registers are at their offsets; reading one returns its value (`CMD` reads 0) and
changes nothing of the block; their values after reset are the table's; a write to a read-only one is
ignored. -/
def Obligations.WindowReadsReturnTheRegisters : Prop :=
  (∀ (s : State) (rest : List HostAccess),
    (s.hostNext (memRead Config.base) rest →
      step s = .next { s.afterAccess rest with reads := s.reads ++ [0#32] }) ∧
    (s.hostNext (memRead (Config.base + 0x4)) rest →
      step s = .next { s.afterAccess rest with reads := s.reads ++ [statusWord s] }) ∧
    (s.hostNext (memRead (Config.base + 0x8)) rest →
      step s = .next { s.afterAccess rest with reads := s.reads ++ [s.tuneWord] }) ∧
    (s.hostNext (memRead (Config.base + 0xC)) rest →
      step s = .next { s.afterAccess rest with reads := s.reads ++ [s.rangeSel.setWidth 32] })) ∧
  (statusWord State.reset = 0x0000000C#32 ∧ State.reset.tuneWord = 0x00000000#32 ∧
    State.reset.rangeSel.setWidth 32 = 0x00000000#32) ∧
  (∀ (s : State) (v : Word) (rest : List HostAccess) (off : Nat), off = 0x4 ∨ off = 0x8 ∨ off = 0xC →
    s.hostNext (memWrite (Config.base + off) v) rest → step s = .next (s.afterAccess rest))

/-- 60_exceptions.md R98: an access of another width, or at an address that is no multiple of 4, is refused:
the run ends in a refusal and no value is returned. The refusal names what is wrong where one thing is. -/
def Obligations.UndefinedAccessesAreRefused : Prop :=
  ∀ (s : State) (addr width : Nat) (v : Word) (rest : List HostAccess),
    (s.hostNext (.read (addr - Config.base) width) rest ∨ s.hostNext (.write (addr - Config.base) width v) rest) →
    (width ≠ 4 ∨ addr % 4 ≠ 0) →
      ∃ r, step s = .refused r ∧ (addr % 4 = 0 → r = .accessWidth width) ∧
        (width = 4 → r = .misalignedAddress (addr - Config.base))

/-- The model's choice (log 7) for a 32-bit aligned access outside the 16 bytes of the window (20_memory.md
R35, R44): it faults, whatever it is. -/
def Obligations.AccessesOutsideTheWindowFault : Prop :=
  ∀ (s : State) (addr : Nat) (v : Word) (rest : List HostAccess),
    (s.hostNext (memRead addr) rest ∨ s.hostNext (memWrite addr v) rest) → addr % 4 = 0 →
    (addr < Config.base ∨ Config.base + 16 ≤ addr) →
      step s = .fault (.outsideWindow (addr - Config.base))

/-- 20_memory.md R43 and R42: a host read and a sequencer step in either order leave the same block. -/
def Obligations.ReadsAndSequencerStepsCommute : Prop :=
  ∀ (s : State) (off : Int) (rest : List HostAccess) (tail : List Turn), s.resetLine = false →
    s.host = .read off 4 :: rest → (regAt off).isSome = true →
    ∃ t u, run 2 { s with turns := .host :: .sequencer :: tail } = .next t ∧
      run 2 { s with turns := .sequencer :: .host :: tail } = .next u ∧
      sameBlock t u ∧ t.host = rest ∧ u.host = rest ∧ t.pending = s.pending.tail

/-! ### The sequencer -/

/-- The sequencer's turn (10_state.md R27, R28) takes the head action off the pending list, performs it and
appends it to the trace. The model's own: a sequencer's turn performs a `Wait` whole, from any position inside
it, and leaves the position, `waitPos`, at 0 (log 10); with nothing pending the turn does nothing (log 5). -/
def Obligations.SequencerPerformsTheHeadAction : Prop :=
  ∀ s : State, s.resetLine = false → s.nextTurn = .sequencer →
    (s.pending = [] → step s = .next { s with turns := s.turns.tail }) ∧
    (∀ v rest, s.pending = .setSda v :: rest → step s = .next { s with
      turns := s.turns.tail, sdaOut := v, pending := rest, waitPos := 0, trace := s.trace ++ [.setSda v] }) ∧
    (∀ v rest, s.pending = .setScl v :: rest → step s = .next { s with
      turns := s.turns.tail, sclOut := v, pending := rest, waitPos := 0, trace := s.trace ++ [.setScl v] }) ∧
    (∀ d rest, s.pending = .wait d :: rest → step s = .next { s with
      turns := s.turns.tail, pending := rest, waitPos := 0, trace := s.trace ++ [.wait d] })

/-- What a step can do to the pending list and the trace (10_state.md section 5; the clock turns are the
model's, log 10). Nothing; or the head action leaves the list and ends the trace, on a sequencer or clock
turn; or an accepted command sets the list, which was empty, to its own actions; or reset empties both. And
a sequencer's turn with something pending performs the head action. -/
def Obligations.PendingMovesOnlyForward : Prop :=
  (∀ s t : State, step s = .next t →
    (t.pending = s.pending ∧ t.trace = s.trace) ∨
    (∃ a, s.pending = a :: t.pending ∧ t.trace = s.trace ++ [a] ∧
      (s.nextTurn = .sequencer ∨ s.nextTurn = .clock)) ∨
    (∃ w rest i, s.hostNext (memWrite Config.base w) rest ∧ decode w = .ok i ∧ s.pending = [] ∧
      t.pending = actionsOf i ∧ t.trace = s.trace) ∨
    (s.nextTurn = .assertReset ∧ t.pending = [] ∧ t.trace = [])) ∧
  (∀ s : State, s.resetLine = false → s.nextTurn = .sequencer → s.pending ≠ [] →
    ∃ a rest, s.pending = a :: rest ∧
      step s = .next { performAction a s with
        turns := s.turns.tail, pending := rest, waitPos := 0, trace := s.trace ++ [a] })

/-- 10_state.md R19: a command with actions makes `BUSY` 1 in the step that accepts it, TUNE leaves it 0, and
the sequencer step that completes the last action makes it 0. -/
def Obligations.BusyFollowsThePendingList : Prop :=
  (∀ s : State, (statusWord s).getLsbD 0 = true ↔ s.pending ≠ []) ∧
  (∀ (s : State) (w : Word) (i : Instr) (rest : List HostAccess),
    s.hostNext (memWrite Config.base w) rest → s.pending = [] → decode w = .ok i →
      ∃ t, step s = .next t ∧ ((statusWord t).getLsbD 0 = true ↔ actionsOf i ≠ [])) ∧
  (∀ (s : State) (a : PinAction), s.resetLine = false → s.nextTurn = .sequencer → s.pending = [a] →
    ∃ t, step s = .next t ∧ (statusWord t).getLsbD 0 = false)

/-- 20_memory.md sections 1 and 5 (R46, R47): over any run without a reset, the block has performed or has
pending exactly the actions of the commands the host has got accepted, in program order, one after
another. -/
def Obligations.CommandsArePerformedInOrder : Prop :=
  ∀ (n : Nat) (s t : State), Turn.assertReset ∉ s.turns → run n s = .next t →
    ∃ completed : List HostAccess, s.host = completed ++ t.host ∧
      t.committed = s.committed ++ completed.flatMap HostAccess.queued

/-- 10_state.md section 5 (R28): as many sequencer turns as there are pending actions perform them all. -/
def Obligations.SequencerDrainsThePendingList : Prop :=
  ∀ s : State, Invariant s → s.resetLine = false → s.turns = List.replicate s.pending.length .sequencer →
    run s.pending.length s = .next { drained s with turns := [] }

/-- The clock performs everything pending in exactly the cycles the actions take, and not in fewer. It is about
clock turns and the position inside a `Wait`, which are the model's reading (log 10) of 10_state.md R27 and R32
and 60_exceptions.md R105. -/
def Obligations.ClockDrainsInExactlyTheCycles : Prop :=
  ∀ (s : State) (k : Nat), Invariant s → s.resetLine = false → s.turns = List.replicate k .clock →
    (k = cyclesLeft s → run k s = .next { drained s with turns := [] }) ∧
    (k < cyclesLeft s → ∃ t, run k s = .next t ∧ t.busy = true)

/-- The durations of the table in 70_reset_and_hazards.md section 4 (which the spec marks as derived), row by
row: the sequencer actions, the `Set` actions, the cycles and the nominal time of every command: the nominal
microseconds and the `N_START` waits that come on top. A bad word queues nothing. The last row is the full
program of 30_encoding.md section 5. -/
def Obligations.CommandDurations : Prop :=
  ((actionsOf .start).length = 7 ∧ (actionsOf .start).countP PinAction.isSet = 4 ∧
    duration (actionsOf .start) = 4 + 3 * Config.delayCycles .start ∧
    nominalMicros (actionsOf .start) = 0 ∧ waitsOf .start (actionsOf .start) = 3) ∧
  ((actionsOf .stop).length = 4 ∧ (actionsOf .stop).countP PinAction.isSet = 2 ∧
    duration (actionsOf .stop) = 2 + Config.delayCycles .stop + Config.delayCycles .gap ∧
    nominalMicros (actionsOf .stop) = 26 ∧ waitsOf .start (actionsOf .stop) = 0) ∧
  (∀ byte, (actionsOf (.txbyte byte)).length = 55 ∧ (actionsOf (.txbyte byte)).countP PinAction.isSet = 28 ∧
    duration (actionsOf (.txbyte byte)) = 28 + 9 * bitDelays ∧
    nominalMicros (actionsOf (.txbyte byte)) = 72 ∧ waitsOf .start (actionsOf (.txbyte byte)) = 0) ∧
  (∀ idx value, (actionsOf (.wrreg idx value)).length = 231 ∧
    (actionsOf (.wrreg idx value)).countP PinAction.isSet = 118 ∧
    duration (actionsOf (.wrreg idx value)) = txnCycles ∧
    nominalMicros (actionsOf (.wrreg idx value)) = 314 ∧
    waitsOf .start (actionsOf (.wrreg idx value)) = 3) ∧
  (∀ mode band channel, (actionsOf (.tune mode band channel)).length = 0 ∧
    (actionsOf (.tune mode band channel)).countP PinAction.isSet = 0 ∧
    duration (actionsOf (.tune mode band channel)) = 0 ∧
    nominalMicros (actionsOf (.tune mode band channel)) = 0 ∧
    waitsOf .start (actionsOf (.tune mode band channel)) = 0) ∧
  (∀ mode band channel, (actionsOf (.wrfreq mode band channel)).length = 693 ∧
    (actionsOf (.wrfreq mode band channel)).countP PinAction.isSet = 354 ∧
    duration (actionsOf (.wrfreq mode band channel)) = 3 * txnCycles ∧
    nominalMicros (actionsOf (.wrfreq mode band channel)) = 942 ∧
    waitsOf .start (actionsOf (.wrfreq mode band channel)) = 9) ∧
  (∀ w e, decode w = .error e → (commandWrite w).queued = []) ∧
  (∀ tmpl mode band channel, ((regprogCommands tmpl mode band channel).flatMap actionsOf).length = 5313 ∧
    ((regprogCommands tmpl mode band channel).flatMap actionsOf).countP PinAction.isSet = 2714 ∧
    duration ((regprogCommands tmpl mode band channel).flatMap actionsOf) = 23 * txnCycles ∧
    nominalMicros ((regprogCommands tmpl mode band channel).flatMap actionsOf) = 7222 ∧
    waitsOf .start ((regprogCommands tmpl mode band channel).flatMap actionsOf) = 69)

/-- 10_state.md R17 and 70_reset_and_hazards.md R114: while the block is busy a command write does not
complete and changes nothing; with the turns left to the machine it is accepted right after the last
pending action, with no action dropped. -/
def Obligations.StalledWriteIsAcceptedAfterThePendingActions : Prop :=
  ∀ (s : State) (w : Word) (rest : List HostAccess), s.resetLine = false → s.pending ≠ [] →
    s.host = memWrite Config.base w :: rest →
    (s.nextTurn = .host → step s = .next { s with turns := s.turns.tail }) ∧
    (s.turns = [] →
      run s.pending.length s = .next (drained s) ∧
      run (s.pending.length + 1) s = acceptWord w { drained s with host := rest })

/-- Inter-transaction spacing is built in (70_reset_and_hazards.md section 3, which the spec derives): the actions of a
STOP, a WRREG and a WRFREQ end with the stop edge and the settle after it. -/
def Obligations.StopsAreFollowedByTheGap : Prop :=
  ∀ i : Instr, i.mnemonic = "STOP" ∨ i.mnemonic = "WRREG" ∨ i.mnemonic = "WRFREQ" →
    ∃ before, actionsOf i = before ++ [.setSda true, .wait .gap] ∧
      ∀ l, (levelsAfter l before).scl = true

/-- What the radio IC sees (10_state.md R29, R30). The waveform of any list of actions lasts as long as they do
and ends at the levels they end with. The machine drives it cycle by cycle: from a state that meets the
invariant, the cycle numbered `k` from now (from 0, one clock turn each: the model's, log 10) leaves the outputs
at the levels the waveform of the pending list gives in that cycle, those of the `Wait` in progress that have
gone by counted. And the trace after all of them gives the waveform before, continued by that of the pending
list. -/
def Obligations.WaveformLastsAsTheActionsDo : Prop :=
  (∀ (l : Levels) (as : List PinAction),
    ((waveform l as).map Prod.snd).sum = duration as ∧
    ((waveform l as).map Prod.fst).getLastD l = levelsAfter l as) ∧
  (∀ (s : State) (k : Nat), Invariant s → s.resetLine = false → k < cyclesLeft s →
    s.turns = List.replicate (k + 1) .clock →
      ∃ t, run (k + 1) s = .next t ∧
        (levelsInCycles s.levels s.pending)[s.waitPos + k]? = some t.levels) ∧
  (∀ s : State, Invariant s → s.resetLine = false → s.turns = List.replicate (cyclesLeft s) .clock →
    ∃ t, run (cyclesLeft s) s = .next t ∧
      waveform .idle t.trace = waveform .idle s.trace ++ waveform s.levels s.pending)

/-! ### The line -/

/-- The levels at the end of each sequence, from any levels (40_serial_bus.md section 2, which the spec
derives from the sequences). -/
def Obligations.SequencesEndAtTheirLevels : Prop :=
  ∀ l : Levels,
    levelsAfter l startSeq = { sda := false, scl := false } ∧
    (∀ v, levelsAfter l (bitSeq v) = { sda := v, scl := false }) ∧
    levelsAfter l ackSeq = { sda := false, scl := false } ∧
    (∀ b, levelsAfter l (byteSeq b) = { sda := false, scl := false }) ∧
    levelsAfter l stopSeq = { sda := true, scl := true } ∧
    (∀ dev idx v, levelsAfter l (txnSeq dev idx v) = { sda := true, scl := true })

/-- 20_memory.md R38: on the line every byte shows its eight bits at eight rising clock edges, bit 7 first
after the start condition or after the previous byte's acknowledge clock, and no other condition. -/
def Obligations.BytesGoOutMostSignificantBitFirst : Prop :=
  ∀ (l : Levels) (b b' : Byte),
    lineEvents l (startSeq ++ byteSeq b ++ byteSeq b') =
      lineEvents l startSeq ++
        [.bit (b.getLsbD 7), .bit (b.getLsbD 6), .bit (b.getLsbD 5), .bit (b.getLsbD 4),
         .bit (b.getLsbD 3), .bit (b.getLsbD 2), .bit (b.getLsbD 1), .bit (b.getLsbD 0), .bit true] ++
        [.bit (b'.getLsbD 7), .bit (b'.getLsbD 6), .bit (b'.getLsbD 5), .bit (b'.getLsbD 4),
         .bit (b'.getLsbD 3), .bit (b'.getLsbD 2), .bit (b'.getLsbD 1), .bit (b'.getLsbD 0), .bit true] ∧
    (lineEvents l startSeq).getLast? = some .start

/-- 20_memory.md R39 over the whole machine, with the line conditions of 40_serial_bus.md section 2 (which the
spec derives from the sequences): an accepted WRREG, given the time, puts one start condition, its four bytes
with the value's high byte before its low byte, and one stop condition on the line, and leaves the bus idle.
From an open bus a clock edge with data released comes before the start condition. At each of the 232 steps
one agent only has something to do, so the order of turns is forced. -/
def Obligations.WrregPutsItsFrameOnTheLine : Prop :=
  ∀ (s : State) (idx : Byte) (value : Half), Invariant s → s.resetLine = false → s.pending = [] →
    ∃ t actions, run 232 (withCommands [.wrreg idx value] s) = .next t ∧ t.trace = s.trace ++ actions ∧
      t.busy = false ∧ t.levels = .idle ∧
      lineEvents s.levels actions =
        (if s.levels = .idle then [] else [.bit true]) ++ [.start] ++ byteEvents Config.devAddr ++
          byteEvents idx ++ byteEvents ((value >>> 8).setWidth 8) ++ byteEvents (value.setWidth 8) ++
          [.bit false, .stop]

/-- A byte sent with no start condition before it, from the idle bus (the corner case of TXBYTE, which the spec
derives from the bit cell): bit 7 is not clocked, and if it is 0 its data fall is a start condition. -/
def Obligations.TxbyteOnAnIdleBusLosesItsFirstBit : Prop :=
  ∀ b : Byte, lineEvents .idle (byteSeq b) =
    (if b.getLsbD 7 then [] else [.start]) ++ (byteEvents b).tail

/-- A WRREG is the six commands of XFER (40_serial_bus.md section 3, 30_encoding.md R64): run to the end, the
two leave the machine in one and the same state, trace and all. -/
def Obligations.WrregEqualsTheSixCommands : Prop :=
  ∀ (s : State) (idx : Byte) (value : Half), Invariant s → s.resetLine = false → s.pending = [] →
    ∃ t, run 232 (withCommands [.wrreg idx value] s) = .next t ∧
      run 237 (withCommands
        [.start, .txbyte Config.devAddr, .txbyte idx, .txbyte ((value >>> 8).setWidth 8),
          .txbyte (value.setWidth 8), .stop] s) = .next t ∧
      t.busy = false

/-- A WRFREQ is a TUNE and the WRREGs of registers 2, 1 and 0 (41_frequency_synth.md section 2, which the spec
derives): run to the end, the two leave the machine in one and the same state, trace and all. -/
def Obligations.WrfreqEqualsTuneAndThreeWrregs : Prop :=
  ∀ (s : State) (mode : Mode) (band channel : Byte), Invariant s → s.resetLine = false → s.pending = [] →
    ∃ t tw rs, tw = (computeTuning mode band channel).word ∧ rs = (computeTuning mode band channel).rangeSel ∧
      run 694 (withCommands [.wrfreq mode band channel] s) = .next t ∧
      run 697 (withCommands
        [.tune mode band channel, .wrreg 2#8 rs, .wrreg 1#8 (tw.setWidth 16),
          .wrreg 0#8 ((tw >>> 16).setWidth 16)] s) = .next t ∧
      t.busy = false

/-! ### Exceptions and reset -/

/-- 10_state.md R20: `BADCMD` stays 1 under every step but a reset, which clears it, and only an accepted bad
word sets it. -/
def Obligations.BadcmdIsStickyUntilReset : Prop :=
  ∀ s t : State, step s = .next t →
    (s.nextTurn = .assertReset → t.badCmd = false) ∧
    (s.nextTurn ≠ .assertReset → s.badCmd = true → t.badCmd = true) ∧
    (s.badCmd = false → t.badCmd = true →
      ∃ w rest e, s.hostNext (memWrite Config.base w) rest ∧ s.pending = [] ∧ decode w = .error e) ∧
    (∀ w rest e, s.hostNext (memWrite Config.base w) rest → s.pending = [] → decode w = .error e →
      t.badCmd = true)

/-- 10_state.md R34: the value of every piece of state after reset. -/
def Obligations.ResetValues : Prop :=
  State.reset.sdaOut = true ∧ State.reset.sclOut = true ∧ State.reset.pending = [] ∧
  (statusWord State.reset).getLsbD 0 = false ∧ State.reset.badCmd = false ∧
  State.reset.tuneWord = 0x00000000#32 ∧ State.reset.rangeSel = 0x0000#16 ∧ State.reset.trace = []

/-- Reset (70_reset_and_hazards.md section 1): asserting it gives every piece of the block's state its reset
value at once, whatever was pending (the position inside a `Wait` too, whose reset value is the model's: log 10);
while it is asserted (log 12) no host access completes and nothing else moves; a command write stalled
before it is accepted after its release. -/
def Obligations.ResetEndsEverythingAtOnce : Prop :=
  (∀ s : State, s.nextTurn = .assertReset →
    step s = .next { State.reset with
      resetLine := true, host := s.host, turns := s.turns.tail, reads := s.reads }) ∧
  (∀ s : State, s.resetLine = true → s.nextTurn ≠ .assertReset → s.nextTurn ≠ .releaseReset →
    step s = .next { s with turns := s.turns.tail }) ∧
  (∀ s : State, s.nextTurn = .releaseReset →
    step s = .next { s with resetLine := false, turns := s.turns.tail }) ∧
  (∀ (s : State) (w : Word) (rest : List HostAccess) (tail : List Turn), s.pending ≠ [] → s.resetLine = false →
    s.host = memWrite Config.base w :: rest →
    s.turns = .host :: .assertReset :: .host :: .releaseReset :: .host :: tail →
      run 5 s = acceptWord w { State.reset with host := rest, turns := tail, reads := s.reads })

/-- A block with nothing to do does nothing (70_reset_and_hazards.md section 1): with no host access and
nothing pending, every number of steps leaves the state as it is. -/
def Obligations.IdleBlockDoesNothing : Prop :=
  ∀ (n : Nat) (s : State), s.host = [] → s.pending = [] → s.turns = [] → run n s = .next s

/-- SBFS never stops a host that makes only the accesses the spec defines (60_exceptions.md section 1,
20_memory.md section 3): no run of any length, over any turns, ends in a fault or a refusal. -/
def Obligations.DefinedAccessesNeverStop : Prop :=
  ∀ (n : Nat) (s : State), s.hostDefined = true → ∃ t, run n s = .next t ∧ t.hostDefined = true

/-! ### The invariant -/

/-- The invariant holds after reset. -/
def Obligations.ResetMeetsTheInvariant : Prop := Invariant State.reset

/-- Every step keeps the invariant: the outputs are what the trace gives, what is pending ends with both outputs
0 or both 1, the position inside a `Wait` is before its end, the pending list and the end of the trace are one
command's actions, and reset holds the block at its reset values (10_state.md R28, R29, R32; 40_serial_bus.md
section 2; 70_reset_and_hazards.md R108). -/
def Obligations.EveryStepKeepsTheInvariant : Prop :=
  ∀ s t : State, Invariant s → step s = .next t → Invariant t
end

