-- ==== Sys2Proof/Laws/Decode.lean ====
section
/-! SUPPORT. What the decoder's parts read, as arithmetic on the word's number. -/

namespace Sys2Proof

/-- Every command's operands fit their fields (R56): the operand types have the fields' widths. -/
theorem Instr.wellFormed_all (i : Instr) : i.wellFormed = true := by
  cases i <;> simp only [Instr.wellFormed, Instr.operandFields, fitsField, List.all_cons, List.all_nil,
    BitVec.isLt, decide_true, Bool.and_self]

theorem modeOfBit_bitOfMode (m : Mode) : modeOfBit (bitOfMode m) = m := by cases m <;> rfl

theorem bitOfMode_modeOfBit (b : Bool) : bitOfMode (modeOfBit b) = b := by cases b <;> rfl

@[simp] theorem field_toNat (w : Word) (lo width : Nat) :
    (field w lo width).toNat = w.toNat / 2 ^ lo % 2 ^ width := by
  simp [field, BitVec.extractLsb'_toNat, Nat.shiftRight_eq_div_pow]

/-- The number of a concatenation (00_scope.md R8). -/
theorem toNat_append_eq {n m : Nat} (a : BitVec n) (b : BitVec m) :
    (a ++ b).toNat = a.toNat * 2 ^ m + b.toNat := by
  rw [BitVec.toNat_append, ← Nat.shiftLeft_add_eq_or_of_lt b.isLt, Nat.shiftLeft_eq]

theorem encode_txbyte_toNat (byte : Byte) : (encode (.txbyte byte)).toNat = 0x30000000 + byte.toNat :=
  (toNat_append_eq (0x3#4 ++ 0#20) byte).trans rfl

theorem encode_wrreg_toNat (idx : Byte) (value : Half) :
    (encode (.wrreg idx value)).toNat = 0x40000000 + idx.toNat * 2 ^ 16 + value.toNat := by
  refine (toNat_append_eq (0x4#4 ++ 0#4 ++ idx) value).trans ?_
  rw [show ((0x4#4 ++ 0#4 ++ idx) : BitVec 16).toNat = 0x40 * 2 ^ 8 + idx.toNat from
    toNat_append_eq (0x4#4 ++ 0#4) idx]
  omega

/-- The words of format T (R55). -/
theorem formatT_toNat (op : BitVec 4) (m : Bool) (band channel : Byte) :
    ((op ++ 0#3 ++ BitVec.ofBool m ++ 0#8 ++ band ++ channel : Word)).toNat =
      op.toNat * 2 ^ 28 + m.toNat * 2 ^ 24 + band.toNat * 2 ^ 8 + channel.toNat := by
  refine (toNat_append_eq (op ++ 0#3 ++ BitVec.ofBool m ++ 0#8 ++ band) channel).trans ?_
  rw [show ((op ++ 0#3 ++ BitVec.ofBool m ++ 0#8 ++ band) : BitVec 24).toNat = _ from
      toNat_append_eq (op ++ 0#3 ++ BitVec.ofBool m ++ 0#8) band,
    show ((op ++ 0#3 ++ BitVec.ofBool m ++ 0#8) : BitVec 16).toNat = _ from
      toNat_append_eq (op ++ 0#3 ++ BitVec.ofBool m) 0#8,
    show ((op ++ 0#3 ++ BitVec.ofBool m) : BitVec 8).toNat = _ from
      toNat_append_eq (op ++ 0#3) (BitVec.ofBool m),
    show ((op ++ 0#3) : BitVec 7).toNat = _ from toNat_append_eq op 0#3]
  cases m <;> simp <;> omega

theorem encode_tune_toNat (mode : Mode) (band channel : Byte) :
    (encode (.tune mode band channel)).toNat =
      0x50000000 + (bitOfMode mode).toNat * 2 ^ 24 + band.toNat * 2 ^ 8 + channel.toNat :=
  formatT_toNat 0x5#4 (bitOfMode mode) band channel

theorem encode_wrfreq_toNat (mode : Mode) (band channel : Byte) :
    (encode (.wrfreq mode band channel)).toNat =
      0x60000000 + (bitOfMode mode).toNat * 2 ^ 24 + band.toNat * 2 ^ 8 + channel.toNat :=
  formatT_toNat 0x6#4 (bitOfMode mode) band channel

/-- The mode bit as a number's bit. -/
theorem modeField_eq (w : Word) : modeField w = modeOfBit (w.toNat / 2 ^ 24 % 2 == 1) := by
  rw [modeField, BitVec.getLsbD, Nat.testBit_eq_decide_div_mod_eq]
  congr 1

/-- The bit of the mode operand is bit 24 of the word (R56, R57). -/
theorem bitOfMode_modeField (w : Word) : (bitOfMode (modeField w)).toNat = w.toNat / 2 ^ 24 % 2 := by
  rw [modeField_eq, bitOfMode_modeOfBit]
  have h : w.toNat / 2 ^ 24 % 2 < 2 := Nat.mod_lt _ (by decide)
  cases hb : (w.toNat / 2 ^ 24 % 2 == 1) <;> simp at hb ⊢ <;> omega

/-- A strict command is decoded exactly when its reserved-zero bits are clear. -/
theorem strict_ok_iff {clear : Bool} {op : BitVec 4} {i j : Instr} :
    strict clear op i = .ok j ↔ clear = true ∧ i = j := by
  cases clear <;> simp [strict]

/-- What the decoder can answer, said once: the opcode, the reserved-zero bits and the operands of each
command (R59). -/
theorem decode_ok_iff {w : Word} {i : Instr} :
    decode w = .ok i ↔
      (opField w = 0x1#4 ∧ field w 0 28 = 0#28 ∧ i = .start) ∨
      (opField w = 0x2#4 ∧ field w 0 28 = 0#28 ∧ i = .stop) ∨
      (opField w = 0x3#4 ∧ field w 8 20 = 0#20 ∧ i = .txbyte (field w 0 8)) ∨
      (opField w = 0x4#4 ∧ field w 24 4 = 0#4 ∧ i = .wrreg (field w 16 8) (field w 0 16)) ∨
      (opField w = 0x5#4 ∧ (field w 25 3 = 0#3 ∧ field w 16 8 = 0#8) ∧
        i = .tune (modeField w) (field w 8 8) (field w 0 8)) ∨
      (opField w = 0x6#4 ∧ (field w 25 3 = 0#3 ∧ field w 16 8 = 0#8) ∧
        i = .wrfreq (modeField w) (field w 8 8) (field w 0 8)) := by
  unfold decode
  simp only
  split_ifs with h1 h2 h3 h4 h5 h6 <;>
    simp_all [strict_ok_iff, eq_comm (a := i)]

end Sys2Proof
end

