-- ==== Sys2Proof/Laws/State.lean ====
section
/-! SUPPORT. One lemma per field for each update of the state, so that no proof unfolds a record update. -/

namespace Sys2Proof.Machine

/-! ### enqueue -/

@[simp] theorem enqueue_sdaOut (seq : List PinAction) (s : State) :
    (enqueue seq s).sdaOut = s.sdaOut := rfl
@[simp] theorem enqueue_sclOut (seq : List PinAction) (s : State) :
    (enqueue seq s).sclOut = s.sclOut := rfl
@[simp] theorem enqueue_pending (seq : List PinAction) (s : State) :
    (enqueue seq s).pending = seq := rfl
@[simp] theorem enqueue_waitPos (seq : List PinAction) (s : State) :
    (enqueue seq s).waitPos = s.waitPos := rfl
@[simp] theorem enqueue_badCmd (seq : List PinAction) (s : State) :
    (enqueue seq s).badCmd = s.badCmd := rfl
@[simp] theorem enqueue_tuneWord (seq : List PinAction) (s : State) :
    (enqueue seq s).tuneWord = s.tuneWord := rfl
@[simp] theorem enqueue_rangeSel (seq : List PinAction) (s : State) :
    (enqueue seq s).rangeSel = s.rangeSel := rfl
@[simp] theorem enqueue_trace (seq : List PinAction) (s : State) :
    (enqueue seq s).trace = s.trace := rfl
@[simp] theorem enqueue_resetLine (seq : List PinAction) (s : State) :
    (enqueue seq s).resetLine = s.resetLine := rfl
@[simp] theorem enqueue_host (seq : List PinAction) (s : State) :
    (enqueue seq s).host = s.host := rfl
@[simp] theorem enqueue_turns (seq : List PinAction) (s : State) :
    (enqueue seq s).turns = s.turns := rfl
@[simp] theorem enqueue_reads (seq : List PinAction) (s : State) :
    (enqueue seq s).reads = s.reads := rfl

/-! ### latchTuning -/

@[simp] theorem latchTuning_sdaOut (t : Tuning) (s : State) :
    (latchTuning t s).sdaOut = s.sdaOut := rfl
@[simp] theorem latchTuning_sclOut (t : Tuning) (s : State) :
    (latchTuning t s).sclOut = s.sclOut := rfl
@[simp] theorem latchTuning_pending (t : Tuning) (s : State) :
    (latchTuning t s).pending = s.pending := rfl
@[simp] theorem latchTuning_waitPos (t : Tuning) (s : State) :
    (latchTuning t s).waitPos = s.waitPos := rfl
@[simp] theorem latchTuning_badCmd (t : Tuning) (s : State) :
    (latchTuning t s).badCmd = s.badCmd := rfl
@[simp] theorem latchTuning_tuneWord (t : Tuning) (s : State) :
    (latchTuning t s).tuneWord = t.word := rfl
@[simp] theorem latchTuning_rangeSel (t : Tuning) (s : State) :
    (latchTuning t s).rangeSel = t.rangeSel := rfl
@[simp] theorem latchTuning_trace (t : Tuning) (s : State) :
    (latchTuning t s).trace = s.trace := rfl
@[simp] theorem latchTuning_resetLine (t : Tuning) (s : State) :
    (latchTuning t s).resetLine = s.resetLine := rfl
@[simp] theorem latchTuning_host (t : Tuning) (s : State) :
    (latchTuning t s).host = s.host := rfl
@[simp] theorem latchTuning_turns (t : Tuning) (s : State) :
    (latchTuning t s).turns = s.turns := rfl
@[simp] theorem latchTuning_reads (t : Tuning) (s : State) :
    (latchTuning t s).reads = s.reads := rfl

/-! ### raiseBadCommand -/

@[simp] theorem raiseBadCommand_sdaOut (s : State) :
    (raiseBadCommand s).sdaOut = s.sdaOut := rfl
@[simp] theorem raiseBadCommand_sclOut (s : State) :
    (raiseBadCommand s).sclOut = s.sclOut := rfl
@[simp] theorem raiseBadCommand_pending (s : State) :
    (raiseBadCommand s).pending = s.pending := rfl
@[simp] theorem raiseBadCommand_waitPos (s : State) :
    (raiseBadCommand s).waitPos = s.waitPos := rfl
@[simp] theorem raiseBadCommand_badCmd (s : State) :
    (raiseBadCommand s).badCmd = true := rfl
@[simp] theorem raiseBadCommand_tuneWord (s : State) :
    (raiseBadCommand s).tuneWord = s.tuneWord := rfl
@[simp] theorem raiseBadCommand_rangeSel (s : State) :
    (raiseBadCommand s).rangeSel = s.rangeSel := rfl
@[simp] theorem raiseBadCommand_trace (s : State) :
    (raiseBadCommand s).trace = s.trace := rfl
@[simp] theorem raiseBadCommand_resetLine (s : State) :
    (raiseBadCommand s).resetLine = s.resetLine := rfl
@[simp] theorem raiseBadCommand_host (s : State) :
    (raiseBadCommand s).host = s.host := rfl
@[simp] theorem raiseBadCommand_turns (s : State) :
    (raiseBadCommand s).turns = s.turns := rfl
@[simp] theorem raiseBadCommand_reads (s : State) :
    (raiseBadCommand s).reads = s.reads := rfl

/-! ### finishAction -/

@[simp] theorem finishAction_sdaOut (a : PinAction) (rest : List PinAction) (s : State) :
    (finishAction a rest s).sdaOut = s.sdaOut := rfl
@[simp] theorem finishAction_sclOut (a : PinAction) (rest : List PinAction) (s : State) :
    (finishAction a rest s).sclOut = s.sclOut := rfl
@[simp] theorem finishAction_pending (a : PinAction) (rest : List PinAction) (s : State) :
    (finishAction a rest s).pending = rest := rfl
@[simp] theorem finishAction_waitPos (a : PinAction) (rest : List PinAction) (s : State) :
    (finishAction a rest s).waitPos = 0 := rfl
@[simp] theorem finishAction_badCmd (a : PinAction) (rest : List PinAction) (s : State) :
    (finishAction a rest s).badCmd = s.badCmd := rfl
@[simp] theorem finishAction_tuneWord (a : PinAction) (rest : List PinAction) (s : State) :
    (finishAction a rest s).tuneWord = s.tuneWord := rfl
@[simp] theorem finishAction_rangeSel (a : PinAction) (rest : List PinAction) (s : State) :
    (finishAction a rest s).rangeSel = s.rangeSel := rfl
@[simp] theorem finishAction_trace (a : PinAction) (rest : List PinAction) (s : State) :
    (finishAction a rest s).trace = s.trace ++ [a] := rfl
@[simp] theorem finishAction_resetLine (a : PinAction) (rest : List PinAction) (s : State) :
    (finishAction a rest s).resetLine = s.resetLine := rfl
@[simp] theorem finishAction_host (a : PinAction) (rest : List PinAction) (s : State) :
    (finishAction a rest s).host = s.host := rfl
@[simp] theorem finishAction_turns (a : PinAction) (rest : List PinAction) (s : State) :
    (finishAction a rest s).turns = s.turns := rfl
@[simp] theorem finishAction_reads (a : PinAction) (rest : List PinAction) (s : State) :
    (finishAction a rest s).reads = s.reads := rfl

/-! ### completeAccess -/

@[simp] theorem completeAccess_sdaOut (s : State) :
    (completeAccess s).sdaOut = s.sdaOut := rfl
@[simp] theorem completeAccess_sclOut (s : State) :
    (completeAccess s).sclOut = s.sclOut := rfl
@[simp] theorem completeAccess_pending (s : State) :
    (completeAccess s).pending = s.pending := rfl
@[simp] theorem completeAccess_waitPos (s : State) :
    (completeAccess s).waitPos = s.waitPos := rfl
@[simp] theorem completeAccess_badCmd (s : State) :
    (completeAccess s).badCmd = s.badCmd := rfl
@[simp] theorem completeAccess_tuneWord (s : State) :
    (completeAccess s).tuneWord = s.tuneWord := rfl
@[simp] theorem completeAccess_rangeSel (s : State) :
    (completeAccess s).rangeSel = s.rangeSel := rfl
@[simp] theorem completeAccess_trace (s : State) :
    (completeAccess s).trace = s.trace := rfl
@[simp] theorem completeAccess_resetLine (s : State) :
    (completeAccess s).resetLine = s.resetLine := rfl
@[simp] theorem completeAccess_host (s : State) :
    (completeAccess s).host = s.host.tail := rfl
@[simp] theorem completeAccess_turns (s : State) :
    (completeAccess s).turns = s.turns := rfl
@[simp] theorem completeAccess_reads (s : State) :
    (completeAccess s).reads = s.reads := rfl

/-! ### returnRead -/

@[simp] theorem returnRead_sdaOut (v : Word) (s : State) :
    (returnRead v s).sdaOut = s.sdaOut := rfl
@[simp] theorem returnRead_sclOut (v : Word) (s : State) :
    (returnRead v s).sclOut = s.sclOut := rfl
@[simp] theorem returnRead_pending (v : Word) (s : State) :
    (returnRead v s).pending = s.pending := rfl
@[simp] theorem returnRead_waitPos (v : Word) (s : State) :
    (returnRead v s).waitPos = s.waitPos := rfl
@[simp] theorem returnRead_badCmd (v : Word) (s : State) :
    (returnRead v s).badCmd = s.badCmd := rfl
@[simp] theorem returnRead_tuneWord (v : Word) (s : State) :
    (returnRead v s).tuneWord = s.tuneWord := rfl
@[simp] theorem returnRead_rangeSel (v : Word) (s : State) :
    (returnRead v s).rangeSel = s.rangeSel := rfl
@[simp] theorem returnRead_trace (v : Word) (s : State) :
    (returnRead v s).trace = s.trace := rfl
@[simp] theorem returnRead_resetLine (v : Word) (s : State) :
    (returnRead v s).resetLine = s.resetLine := rfl
@[simp] theorem returnRead_host (v : Word) (s : State) :
    (returnRead v s).host = s.host := rfl
@[simp] theorem returnRead_turns (v : Word) (s : State) :
    (returnRead v s).turns = s.turns := rfl
@[simp] theorem returnRead_reads (v : Word) (s : State) :
    (returnRead v s).reads = s.reads ++ [v] := rfl

/-! ### takeTurn -/

@[simp] theorem takeTurn_sdaOut (s : State) :
    (takeTurn s).sdaOut = s.sdaOut := rfl
@[simp] theorem takeTurn_sclOut (s : State) :
    (takeTurn s).sclOut = s.sclOut := rfl
@[simp] theorem takeTurn_pending (s : State) :
    (takeTurn s).pending = s.pending := rfl
@[simp] theorem takeTurn_waitPos (s : State) :
    (takeTurn s).waitPos = s.waitPos := rfl
@[simp] theorem takeTurn_badCmd (s : State) :
    (takeTurn s).badCmd = s.badCmd := rfl
@[simp] theorem takeTurn_tuneWord (s : State) :
    (takeTurn s).tuneWord = s.tuneWord := rfl
@[simp] theorem takeTurn_rangeSel (s : State) :
    (takeTurn s).rangeSel = s.rangeSel := rfl
@[simp] theorem takeTurn_trace (s : State) :
    (takeTurn s).trace = s.trace := rfl
@[simp] theorem takeTurn_resetLine (s : State) :
    (takeTurn s).resetLine = s.resetLine := rfl
@[simp] theorem takeTurn_host (s : State) :
    (takeTurn s).host = s.host := rfl
@[simp] theorem takeTurn_turns (s : State) :
    (takeTurn s).turns = s.turns.tail := rfl
@[simp] theorem takeTurn_reads (s : State) :
    (takeTurn s).reads = s.reads := rfl

/-! ### assertReset -/

@[simp] theorem assertReset_sdaOut (s : State) :
    (assertReset s).sdaOut = true := rfl
@[simp] theorem assertReset_sclOut (s : State) :
    (assertReset s).sclOut = true := rfl
@[simp] theorem assertReset_pending (s : State) :
    (assertReset s).pending = [] := rfl
@[simp] theorem assertReset_waitPos (s : State) :
    (assertReset s).waitPos = 0 := rfl
@[simp] theorem assertReset_badCmd (s : State) :
    (assertReset s).badCmd = false := rfl
@[simp] theorem assertReset_tuneWord (s : State) :
    (assertReset s).tuneWord = 0#32 := rfl
@[simp] theorem assertReset_rangeSel (s : State) :
    (assertReset s).rangeSel = 0#16 := rfl
@[simp] theorem assertReset_trace (s : State) :
    (assertReset s).trace = [] := rfl
@[simp] theorem assertReset_resetLine (s : State) :
    (assertReset s).resetLine = true := rfl
@[simp] theorem assertReset_host (s : State) :
    (assertReset s).host = s.host := rfl
@[simp] theorem assertReset_turns (s : State) :
    (assertReset s).turns = s.turns := rfl
@[simp] theorem assertReset_reads (s : State) :
    (assertReset s).reads = s.reads := rfl

/-! ### releaseReset -/

@[simp] theorem releaseReset_sdaOut (s : State) :
    (releaseReset s).sdaOut = s.sdaOut := rfl
@[simp] theorem releaseReset_sclOut (s : State) :
    (releaseReset s).sclOut = s.sclOut := rfl
@[simp] theorem releaseReset_pending (s : State) :
    (releaseReset s).pending = s.pending := rfl
@[simp] theorem releaseReset_waitPos (s : State) :
    (releaseReset s).waitPos = s.waitPos := rfl
@[simp] theorem releaseReset_badCmd (s : State) :
    (releaseReset s).badCmd = s.badCmd := rfl
@[simp] theorem releaseReset_tuneWord (s : State) :
    (releaseReset s).tuneWord = s.tuneWord := rfl
@[simp] theorem releaseReset_rangeSel (s : State) :
    (releaseReset s).rangeSel = s.rangeSel := rfl
@[simp] theorem releaseReset_trace (s : State) :
    (releaseReset s).trace = s.trace := rfl
@[simp] theorem releaseReset_resetLine (s : State) :
    (releaseReset s).resetLine = false := rfl
@[simp] theorem releaseReset_host (s : State) :
    (releaseReset s).host = s.host := rfl
@[simp] theorem releaseReset_turns (s : State) :
    (releaseReset s).turns = s.turns := rfl
@[simp] theorem releaseReset_reads (s : State) :
    (releaseReset s).reads = s.reads := rfl

/-! ### placeCommand -/

@[simp] theorem placeCommand_sdaOut (w : Word) (s : State) :
    (placeCommand w s).sdaOut = s.sdaOut := rfl
@[simp] theorem placeCommand_sclOut (w : Word) (s : State) :
    (placeCommand w s).sclOut = s.sclOut := rfl
@[simp] theorem placeCommand_pending (w : Word) (s : State) :
    (placeCommand w s).pending = [] := rfl
@[simp] theorem placeCommand_waitPos (w : Word) (s : State) :
    (placeCommand w s).waitPos = 0 := rfl
@[simp] theorem placeCommand_badCmd (w : Word) (s : State) :
    (placeCommand w s).badCmd = s.badCmd := rfl
@[simp] theorem placeCommand_tuneWord (w : Word) (s : State) :
    (placeCommand w s).tuneWord = s.tuneWord := rfl
@[simp] theorem placeCommand_rangeSel (w : Word) (s : State) :
    (placeCommand w s).rangeSel = s.rangeSel := rfl
@[simp] theorem placeCommand_trace (w : Word) (s : State) :
    (placeCommand w s).trace = s.trace := rfl
@[simp] theorem placeCommand_resetLine (w : Word) (s : State) :
    (placeCommand w s).resetLine = false := rfl
@[simp] theorem placeCommand_host (w : Word) (s : State) :
    (placeCommand w s).host = commandWrite w :: s.host := rfl
@[simp] theorem placeCommand_turns (w : Word) (s : State) :
    (placeCommand w s).turns = .host :: s.turns := rfl
@[simp] theorem placeCommand_reads (w : Word) (s : State) :
    (placeCommand w s).reads = s.reads := rfl

/-! ### performAction -/

@[simp] theorem performAction_pending (a : PinAction) (s : State) :
    (performAction a s).pending = s.pending := by cases a <;> rfl
@[simp] theorem performAction_waitPos (a : PinAction) (s : State) :
    (performAction a s).waitPos = s.waitPos := by cases a <;> rfl
@[simp] theorem performAction_badCmd (a : PinAction) (s : State) :
    (performAction a s).badCmd = s.badCmd := by cases a <;> rfl
@[simp] theorem performAction_tuneWord (a : PinAction) (s : State) :
    (performAction a s).tuneWord = s.tuneWord := by cases a <;> rfl
@[simp] theorem performAction_rangeSel (a : PinAction) (s : State) :
    (performAction a s).rangeSel = s.rangeSel := by cases a <;> rfl
@[simp] theorem performAction_trace (a : PinAction) (s : State) :
    (performAction a s).trace = s.trace := by cases a <;> rfl
@[simp] theorem performAction_resetLine (a : PinAction) (s : State) :
    (performAction a s).resetLine = s.resetLine := by cases a <;> rfl
@[simp] theorem performAction_host (a : PinAction) (s : State) :
    (performAction a s).host = s.host := by cases a <;> rfl
@[simp] theorem performAction_turns (a : PinAction) (s : State) :
    (performAction a s).turns = s.turns := by cases a <;> rfl
@[simp] theorem performAction_reads (a : PinAction) (s : State) :
    (performAction a s).reads = s.reads := by cases a <;> rfl
@[simp] theorem performAction_setSda_sdaOut (v : Bool) (s : State) :
    (performAction (.setSda v) s).sdaOut = v := rfl
@[simp] theorem performAction_setSda_sclOut (v : Bool) (s : State) :
    (performAction (.setSda v) s).sclOut = s.sclOut := rfl
@[simp] theorem performAction_setScl_sdaOut (v : Bool) (s : State) :
    (performAction (.setScl v) s).sdaOut = s.sdaOut := rfl
@[simp] theorem performAction_setScl_sclOut (v : Bool) (s : State) :
    (performAction (.setScl v) s).sclOut = v := rfl
@[simp] theorem performAction_wait_sdaOut (d : Delay) (s : State) :
    (performAction (.wait d) s).sdaOut = s.sdaOut := rfl
@[simp] theorem performAction_wait_sclOut (d : Delay) (s : State) :
    (performAction (.wait d) s).sclOut = s.sclOut := rfl

/-! ### reset -/

@[simp] theorem reset_sdaOut : State.reset.sdaOut = true := rfl
@[simp] theorem reset_sclOut : State.reset.sclOut = true := rfl
@[simp] theorem reset_pending : State.reset.pending = [] := rfl
@[simp] theorem reset_waitPos : State.reset.waitPos = 0 := rfl
@[simp] theorem reset_badCmd : State.reset.badCmd = false := rfl
@[simp] theorem reset_tuneWord : State.reset.tuneWord = 0#32 := rfl
@[simp] theorem reset_rangeSel : State.reset.rangeSel = 0#16 := rfl
@[simp] theorem reset_trace : State.reset.trace = [] := rfl
@[simp] theorem reset_resetLine : State.reset.resetLine = false := rfl
@[simp] theorem reset_host : State.reset.host = [] := rfl
@[simp] theorem reset_turns : State.reset.turns = [] := rfl
@[simp] theorem reset_reads : State.reset.reads = [] := rfl

end Sys2Proof.Machine
end

