-- ==== Sys2Proof/Laws/Ops.lean ====
section
/-! SUPPORT. One lemma for each shared operation that says once what it can do. -/

namespace Sys2Proof.Machine

theorem busy_eq_false_iff {s : State} : s.busy = false ↔ s.pending = [] := by
  simp [State.busy]

theorem busy_eq_true_iff {s : State} : s.busy = true ↔ s.pending ≠ [] := by
  simp [State.busy]

theorem ready_iff {s : State} : s.ready = true ↔ s.resetLine = false ∧ s.pending = [] := by
  simp [State.ready, State.busy]

/-- What `whenReady` can do: the effect on a ready block, nothing on another. -/
theorem whenReady_next {f : State → State} {s t : State} (h : whenReady f s = .next t) :
    (s.ready = true ∧ t = f s) ∨ (s.ready = false ∧ t = s) := by
  unfold whenReady at h
  split at h
  · rename_i hr
    exact .inl ⟨hr, by cases h; rfl⟩
  · rename_i hr
    exact .inr ⟨by simpa using hr, by cases h; rfl⟩

theorem whenReady_of_ready {f : State → State} {s : State} (h : s.ready = true) :
    whenReady f s = .next (f s) := by simp [whenReady, h]

theorem whenReady_of_not_ready {f : State → State} {s : State} (h : s.ready = false) :
    whenReady f s = .next s := by simp [whenReady, h]

/-- The effect of a command on a ready block: its results latched, its actions queued. -/
def commandEffect : Instr → State → State
  | .start, s => enqueue startSeq s
  | .stop, s => enqueue stopSeq s
  | .txbyte byte, s => enqueue (byteSeq byte) s
  | .wrreg idx value, s => enqueue (txnSeq Config.devAddr idx value) s
  | .tune mode band channel, s => latchTuning (computeTuning mode band channel) s
  | .wrfreq mode band channel, s =>
    enqueue (freqSeq Config.devAddr (computeTuning mode band channel).word
      (computeTuning mode band channel).rangeSel) (latchTuning (computeTuning mode band channel) s)

/-- Every command is its effect on a ready block and waits on another. -/
theorem exec_eq_whenReady (i : Instr) (s : State) : exec i s = whenReady (commandEffect i) s := by
  cases i <;> rfl

/-- The trace, the outputs and the inputs are not the command's to change. -/
theorem commandEffect_frame (i : Instr) (s : State) :
    commandEffect i s = { s with pending := (commandEffect i s).pending,
                                 tuneWord := (commandEffect i s).tuneWord,
                                 rangeSel := (commandEffect i s).rangeSel } := by
  cases i <;> rfl

/-- A command queues its actions on an idle block. -/
theorem commandEffect_pending (i : Instr) (s : State) (h : s.pending = []) :
    (commandEffect i s).pending = actionsOf i := by
  cases i <;> first | rfl | exact h

theorem sequencerStep_nil {s : State} (h : s.pending = []) : sequencerStep s = s := by
  simp [sequencerStep, h]

theorem sequencerStep_cons {s : State} {a : PinAction} {rest : List PinAction}
    (h : s.pending = a :: rest) : sequencerStep s = finishAction a rest (performAction a s) := by
  simp [sequencerStep, h]

/-- The levels after performing an action are the action's. -/
theorem levels_performAction (a : PinAction) (s : State) :
    (performAction a s).levels = a.levelsAfter s.levels := by
  cases a <;> rfl

@[simp] theorem levels_finishAction (a : PinAction) (rest : List PinAction) (s : State) :
    (finishAction a rest s).levels = s.levels := rfl

/-- What one clock cycle can do: count inside a `Wait`, or end the head action. -/
theorem clockCycle_cases (s : State) :
    (∃ d rest, s.pending = .wait d :: rest ∧ s.waitPos + 1 < Config.delayCycles d ∧
      clockCycle s = { s with waitPos := s.waitPos + 1 }) ∨
    clockCycle s = sequencerStep s := by
  unfold clockCycle
  split
  · rename_i d rest h
    by_cases hlt : s.waitPos + 1 < Config.delayCycles d
    · exact .inl ⟨d, rest, h, hlt, by simp [hlt]⟩
    · exact .inr (by simp [hlt])
  · exact .inr rfl

/-- What a host access can reach. -/
theorem resolve_next_iff {off : Int} {width : Nat} {r : WindowReg} :
    resolve off width = .next r ↔ width = 4 ∧ regAt off = some r := by
  unfold resolve regAt
  split_ifs <;> simp_all

/-- What a turn's host access can do when it goes on. -/
theorem hostTurn_next {s t : State} (h : hostTurn s = .next t) :
    (s.host = [] ∧ t = s) ∨
    (∃ off rest r, s.host = .read off 4 :: rest ∧ regAt off = some r ∧
      t = completeAccess (returnRead (readReg r s) s)) ∨
    (∃ off rest v r, s.host = .write off 4 v :: rest ∧ regAt off = some r ∧ r ≠ .cmd ∧
      t = completeAccess s) ∨
    (∃ off rest v, s.host = .write off 4 v :: rest ∧ regAt off = some .cmd ∧
      ((s.ready = false ∧ t = s) ∨ (s.ready = true ∧ acceptWord v (completeAccess s) = .next t))) := by
  unfold hostTurn at h
  split at h
  · rename_i hh
    exact .inl ⟨hh, by cases h; rfl⟩
  · rename_i a rest hh
    cases a with
    | read off width =>
      simp only [hostAccess] at h
      split at h
      · rename_i r hr
        obtain ⟨rfl, hreg⟩ := resolve_next_iff.1 hr
        exact .inr (.inl ⟨off, rest, r, hh, hreg, by cases h; rfl⟩)
      · cases h
      · cases h
    | write off width v =>
      simp only [hostAccess] at h
      split at h
      · rename_i r hr
        obtain ⟨rfl, hreg⟩ := resolve_next_iff.1 hr
        cases r with
        | cmd =>
          refine .inr (.inr (.inr ⟨off, rest, v, hh, hreg, ?_⟩))
          simp only [writeReg, writeCmd] at h
          split at h
          · rename_i hb
            exact .inr ⟨hb, h⟩
          · rename_i hb
            exact .inl ⟨by simpa using hb, by cases h; rfl⟩
        | status => exact .inr (.inr (.inl ⟨off, rest, v, _, hh, hreg, by simp, by cases h; rfl⟩))
        | tuneWord => exact .inr (.inr (.inl ⟨off, rest, v, _, hh, hreg, by simp, by cases h; rfl⟩))
        | rangeSel => exact .inr (.inr (.inl ⟨off, rest, v, _, hh, hreg, by simp, by cases h; rfl⟩))
      · cases h
      · cases h

/-- What acceptance of a word can do on a ready block: the command's effect, or the flag of a bad word. -/
theorem acceptWord_next {w : Word} {s t : State} (hr : s.ready = true) (h : acceptWord w s = .next t) :
    (∃ i, decode w = .ok i ∧ t = commandEffect i s) ∨
    (∃ e, decode w = .error e ∧ t = raiseBadCommand s) := by
  unfold acceptWord at h
  split at h
  · rename_i i hd
    rw [exec_eq_whenReady, whenReady_of_ready hr] at h
    exact .inl ⟨i, hd, by cases h; rfl⟩
  · rename_i e hd
    exact .inr ⟨e, hd, by cases h; rfl⟩

/-- What a step from `s` can do, said once. -/
inductive StepCase (s : State) : State → Prop
  /-- reset is asserted -/
  | asserted (turn : s.nextTurn = .assertReset) : StepCase s (assertReset (takeTurn s))
  /-- reset is released -/
  | released (turn : s.nextTurn = .releaseReset) : StepCase s (releaseReset (takeTurn s))
  /-- nothing moves: reset is asserted, the host has no access, or its command write is stalled -/
  | held (why : s.resetLine = true ∨ (s.nextTurn = .host ∧ (s.host = [] ∨
        ∃ off rest v, s.host = .write off 4 v :: rest ∧ regAt off = some .cmd ∧ s.pending ≠ []))) :
      StepCase s (takeTurn s)
  /-- a whole sequencer step, or the clock cycle that ends the head action -/
  | sequencer (run : s.resetLine = false) (turn : s.nextTurn = .sequencer ∨ s.nextTurn = .clock) :
      StepCase s (sequencerStep (takeTurn s))
  /-- a clock cycle inside a `Wait` -/
  | waiting (d : Delay) (rest : List PinAction) (run : s.resetLine = false) (turn : s.nextTurn = .clock)
      (head : s.pending = .wait d :: rest) (inside : s.waitPos + 1 < Config.delayCycles d) :
      StepCase s { takeTurn s with waitPos := s.waitPos + 1 }
  /-- a host read of a window register -/
  | read (off : Int) (rest : List HostAccess) (r : WindowReg) (run : s.resetLine = false)
      (turn : s.nextTurn = .host) (head : s.host = .read off 4 :: rest) (at_ : regAt off = some r) :
      StepCase s (completeAccess (returnRead (readReg r (takeTurn s)) (takeTurn s)))
  /-- a host write to a read-only register -/
  | ignored (off : Int) (rest : List HostAccess) (v : Word) (r : WindowReg) (run : s.resetLine = false)
      (turn : s.nextTurn = .host) (head : s.host = .write off 4 v :: rest) (at_ : regAt off = some r)
      (ro : r ≠ .cmd) : StepCase s (completeAccess (takeTurn s))
  /-- a command is accepted -/
  | accepted (off : Int) (rest : List HostAccess) (v : Word) (i : Instr) (ready : s.ready = true)
      (turn : s.nextTurn = .host) (head : s.host = .write off 4 v :: rest) (at_ : regAt off = some .cmd)
      (word : decode v = .ok i) : StepCase s (commandEffect i (completeAccess (takeTurn s)))
  /-- a bad word is accepted -/
  | bad (off : Int) (rest : List HostAccess) (v : Word) (e : BadWord) (ready : s.ready = true)
      (turn : s.nextTurn = .host) (head : s.host = .write off 4 v :: rest) (at_ : regAt off = some .cmd)
      (word : decode v = .error e) : StepCase s (raiseBadCommand (completeAccess (takeTurn s)))

theorem next_inj {s t : State} (h : (Host.Outcome.next s : Result) = .next t) : s = t := by
  cases h; rfl

/-- A step that goes on is one of the cases. -/
theorem step_cases {s t : State} (h : step s = .next t) : StepCase s t := by
  unfold step at h
  by_cases hr : s.resetLine = true
  · cases hturn : s.nextTurn with
    | assertReset => rw [hturn] at h; rw [← next_inj h]; exact .asserted hturn
    | releaseReset => rw [hturn] at h; rw [← next_inj h]; exact .released hturn
    | host | sequencer | clock =>
      rw [hturn] at h
      simp only [runTurn, takeTurn_resetLine, hr, if_true] at h
      rw [← next_inj h]; exact .held (.inl hr)
  · have hr : s.resetLine = false := by simpa using hr
    cases hturn : s.nextTurn with
    | assertReset => rw [hturn] at h; rw [← next_inj h]; exact .asserted hturn
    | releaseReset => rw [hturn] at h; rw [← next_inj h]; exact .released hturn
    | sequencer =>
      rw [hturn] at h
      simp only [runTurn, takeTurn_resetLine, hr, Bool.false_eq_true, if_false] at h
      rw [← next_inj h]; exact .sequencer hr (.inl hturn)
    | clock =>
      rw [hturn] at h
      simp only [runTurn, takeTurn_resetLine, hr, Bool.false_eq_true, if_false] at h
      rw [← next_inj h]
      rcases clockCycle_cases (takeTurn s) with ⟨d, rest, hp, hlt, hc⟩ | hc
      · rw [hc]; exact .waiting d rest hr hturn hp hlt
      · rw [hc]; exact .sequencer hr (.inr hturn)
    | host =>
      rw [hturn] at h
      simp only [runTurn, takeTurn_resetLine, hr, Bool.false_eq_true, if_false] at h
      rcases hostTurn_next h with ⟨hh, rfl⟩ | ⟨off, rest, r, hh, hreg, rfl⟩ |
        ⟨off, rest, v, r, hh, hreg, hne, rfl⟩ | ⟨off, rest, v, hh, hreg, ⟨hb, rfl⟩ | ⟨hready, hacc⟩⟩
      · exact .held (.inr ⟨hturn, .inl hh⟩)
      · exact .read off rest r hr hturn hh hreg
      · exact .ignored off rest v r hr hturn hh hreg hne
      · refine .held (.inr ⟨hturn, .inr ⟨off, rest, v, hh, hreg, fun hp => ?_⟩⟩)
        have : s.ready = true := ready_iff.2 ⟨hr, hp⟩
        exact absurd (show s.ready = false from hb) (by rw [this]; decide)
      · rcases acceptWord_next (s := completeAccess (takeTurn s)) hready hacc with ⟨i, hd, rfl⟩ | ⟨e, hd, rfl⟩
        · exact .accepted off rest v i hready hturn hh hreg hd
        · exact .bad off rest v e hready hturn hh hreg hd

end Sys2Proof.Machine
end

