-- ==== Sys2Proof/Laws/PerInstr.lean ====
section
/-! SUPPORT. What holds of every command's encoding, one lemma per command. -/

/-- The word of a command matches the command's own row of the opcode map (30_encoding.md R58, R62). -/
def Sys2Proof.Laws.EncodesItsRow.Statement (i : Sys2Proof.Instr) : Prop :=
  ∃ r ∈ Sys2Proof.opcodeMap, r.mnemonic = i.mnemonic ∧ r.matches (Sys2Proof.encode i) = true

namespace Sys2Proof.Laws

/-- A concatenation under a mask of the upper part: the lower part does not matter. -/
theorem append_and_high {n m : Nat} (a c : BitVec n) (b : BitVec m) :
    (a ++ b) &&& (c ++ 0#m) = (a &&& c) ++ 0#m := by
  apply BitVec.eq_of_getLsbD_eq
  intro i _
  simp only [BitVec.getLsbD_and, BitVec.getLsbD_append]
  split <;> simp

end Sys2Proof.Laws

theorem Sys2Proof.Laws.EncodesItsRow.start : Statement .start :=
  ⟨_, .head _, rfl, by decide⟩

theorem Sys2Proof.Laws.EncodesItsRow.stop : Statement .stop :=
  ⟨_, .tail _ (.head _), rfl, by decide⟩

theorem Sys2Proof.Laws.EncodesItsRow.txbyte (byte : Sys2Proof.Byte) : Statement (.txbyte byte) := by
  refine ⟨_, .tail _ (.tail _ (.head _)), rfl, ?_⟩
  have h : Sys2Proof.encode (.txbyte byte) &&& 0xFFFFFF00#32 = 0x30000000#32 :=
    Sys2Proof.Laws.append_and_high (0x3#4 ++ 0#20) 0xFFFFFF#24 byte
  simpa [Sys2Proof.OpcodeRow.matches] using h

theorem Sys2Proof.Laws.EncodesItsRow.wrreg (idx : Sys2Proof.Byte) (value : Sys2Proof.Half) :
    Statement (.wrreg idx value) := by
  refine ⟨_, .tail _ (.tail _ (.tail _ (.head _))), rfl, ?_⟩
  have h : Sys2Proof.encode (.wrreg idx value) &&& 0xFF000000#32 = 0x40000000#32 := by
    refine (Sys2Proof.Laws.append_and_high (0x40#8 ++ idx) 0xFF00#16 value).trans ?_
    rw [show (0x40#8 ++ idx) &&& 0xFF00#16 = 0x4000#16 from
      Sys2Proof.Laws.append_and_high 0x40#8 0xFF#8 idx]
    rfl
  simpa [Sys2Proof.OpcodeRow.matches] using h

/-- The words of format T under the mask of its rows: `band` and `channel` are outside the mask. -/
theorem Sys2Proof.Laws.formatT_and_mask (top : BitVec 16) (band channel : Sys2Proof.Byte) :
    (top ++ band ++ channel) &&& 0xFEFF0000#32 = (top &&& 0xFEFF#16) ++ 0#16 := by
  refine (Sys2Proof.Laws.append_and_high (top ++ band) 0xFEFF00#24 channel).trans ?_
  rw [show (top ++ band) &&& 0xFEFF00#24 = (top &&& 0xFEFF#16) ++ 0#8 from
    Sys2Proof.Laws.append_and_high top 0xFEFF#16 band]
  generalize top &&& 0xFEFF#16 = t
  apply BitVec.eq_of_getLsbD_eq
  intro i _
  simp only [BitVec.getLsbD_append, BitVec.getLsbD_zero]
  split_ifs <;> first | rfl | omega

theorem Sys2Proof.Laws.EncodesItsRow.tune (mode : Sys2Proof.Mode) (band channel : Sys2Proof.Byte) :
    Statement (.tune mode band channel) := by
  refine ⟨_, .tail _ (.tail _ (.tail _ (.tail _ (.head _)))), rfl, ?_⟩
  have h : Sys2Proof.encode (.tune mode band channel) &&& 0xFEFF0000#32 = 0x50000000#32 := by
    cases mode with
    | receive => exact Sys2Proof.Laws.formatT_and_mask 0x5000#16 band channel
    | transmit => exact Sys2Proof.Laws.formatT_and_mask 0x5100#16 band channel
  simpa [Sys2Proof.OpcodeRow.matches] using h

theorem Sys2Proof.Laws.EncodesItsRow.wrfreq (mode : Sys2Proof.Mode) (band channel : Sys2Proof.Byte) :
    Statement (.wrfreq mode band channel) := by
  refine ⟨_, .tail _ (.tail _ (.tail _ (.tail _ (.tail _ (.head _))))), rfl, ?_⟩
  have h : Sys2Proof.encode (.wrfreq mode band channel) &&& 0xFEFF0000#32 = 0x60000000#32 := by
    cases mode with
    | receive => exact Sys2Proof.Laws.formatT_and_mask 0x6000#16 band channel
    | transmit => exact Sys2Proof.Laws.formatT_and_mask 0x6100#16 band channel
  simpa [Sys2Proof.OpcodeRow.matches] using h
end

