-- ==== Sys2Proof/Laws/Run.lean ====
section
/-! SUPPORT. Runs, turns and the addresses of the window. -/

namespace Sys2Proof.Machine

@[simp] theorem run_zero (s : State) : run 0 s = .next s := rfl

theorem run_succ_of_next {k : Nat} {s t : State} (h : step s = .next t) : run (k + 1) s = run k t := by
  simp only [run, h]

theorem run_succ_of_fault {k : Nat} {s : State} {f : Fault} (h : step s = .fault f) :
    run (k + 1) s = .fault f := by
  simp only [run, h]

theorem run_succ_of_refused {k : Nat} {s : State} {r : Refusal} (h : step s = .refused r) :
    run (k + 1) s = .refused r := by
  simp only [run, h]

/-- `run` is the host's run of the machine. -/
theorem run_eq_core_run (k : Nat) (s : State) : run k s = Host.Core.run Sys2Proof.core k s := by
  induction k generalizing s with
  | zero => rfl
  | succ k ih =>
    cases hs : step s with
    | next t =>
      have h' : Sys2Proof.core.step s = .next t := hs
      rw [run_succ_of_next hs, ih t]
      simp only [Host.Core.run, h']
      rfl
    | fault f =>
      have h' : Sys2Proof.core.step s = .fault f := hs
      rw [run_succ_of_fault hs]
      simp only [Host.Core.run, h']
      rfl
    | refused r =>
      have h' : Sys2Proof.core.step s = .refused r := hs
      rw [run_succ_of_refused hs]
      simp only [Host.Core.run, h']
      rfl

theorem run_succ_cases {k : Nat} {s t : State} (h : run (k + 1) s = .next t) :
    ∃ u, step s = .next u ∧ run k u = .next t := by
  cases hs : step s with
  | next u => exact ⟨u, rfl, (run_succ_of_next hs).symm.trans h⟩
  | fault f => rw [run_succ_of_fault hs] at h; cases h
  | refused r => rw [run_succ_of_refused hs] at h; cases h

/-- A run of `j + k` steps is a run of `j` and then of `k`. -/
theorem run_add {j k : Nat} {s t : State} (h : run j s = .next t) : run (j + k) s = run k t := by
  induction j generalizing s with
  | zero => cases h; simp
  | succ j ih =>
    obtain ⟨u, hu, hj⟩ := run_succ_cases h
    rw [show j + 1 + k = (j + k) + 1 by omega, run_succ_of_next hu, ih hj]

theorem run_one (s : State) : run 1 s = step s := by
  cases hs : step s with
  | next u => rw [run_succ_of_next hs, run_zero]
  | fault f => rw [run_succ_of_fault hs]
  | refused r => rw [run_succ_of_refused hs]

theorem nextTurn_of_cons {s : State} {t : Turn} {ts : List Turn} (h : s.turns = t :: ts) : s.nextTurn = t := by
  simp [State.nextTurn, h]

theorem nextTurn_of_nil {s : State} (h : s.turns = []) :
    s.nextTurn = if hostEnabled s then .host else .sequencer := by
  simp [State.nextTurn, h]

theorem takeTurn_of_nil {s : State} (h : s.turns = []) : takeTurn s = s := by
  cases s; cases h; rfl

/-- `MemWrite(BASE, 4, w)` is the command write at offset 0. -/
theorem memWrite_base (w : Word) : memWrite Config.base w = commandWrite w := by
  simp [memWrite, commandWrite]

theorem memWrite_base_add (off : Nat) (v : Word) : memWrite (Config.base + off) v = .write off 4 v := by
  simp [memWrite]

theorem memRead_base_add (off : Nat) : memRead (Config.base + off) = .read off 4 := by
  simp [memRead]

theorem memRead_base : memRead Config.base = .read 0 4 := by
  simp [memRead]

/-- `BASE` is a multiple of 16 (00_scope.md R5), so an offset is aligned as its address is. -/
theorem base_mod_four : Config.base % 4 = 0 := by
  unfold Config.base; omega

theorem regAt_eq_cmd {off : Int} (h : regAt off = some .cmd) : off = 0 := by
  unfold regAt at h
  split_ifs at h <;> simp_all

end Sys2Proof.Machine
end

