-- ==== Sys2Proof/Laws/Sequences.lean ====
section
/-! SUPPORT. Lengths, durations, end levels and line conditions of action lists, piece by piece. -/

namespace Sys2Proof.Machine

@[simp] theorem levelsAfter_nil (l : Levels) : levelsAfter l [] = l := rfl

@[simp] theorem levelsAfter_cons (l : Levels) (a : PinAction) (as : List PinAction) :
    levelsAfter l (a :: as) = levelsAfter (a.levelsAfter l) as := rfl

theorem levelsAfter_append (l : Levels) (as bs : List PinAction) :
    levelsAfter l (as ++ bs) = levelsAfter (levelsAfter l as) bs := by
  simp [levelsAfter, List.foldl_append]

@[simp] theorem lineEvents_nil (l : Levels) : lineEvents l [] = [] := rfl

@[simp] theorem lineEvents_cons (l : Levels) (a : PinAction) (as : List PinAction) :
    lineEvents l (a :: as) = a.lineEvent l ++ lineEvents (a.levelsAfter l) as := rfl

theorem lineEvents_append (l : Levels) (as bs : List PinAction) :
    lineEvents l (as ++ bs) = lineEvents l as ++ lineEvents (levelsAfter l as) bs := by
  induction as generalizing l with
  | nil => rfl
  | cons a as ih => simp [ih]

@[simp] theorem duration_nil : duration [] = 0 := rfl

@[simp] theorem duration_cons (a : PinAction) (as : List PinAction) :
    duration (a :: as) = a.cycles + duration as := rfl

theorem duration_append (as bs : List PinAction) :
    duration (as ++ bs) = duration as + duration bs := by
  simp [duration]

/-- The nominal value of a delay is a value the parameter can have (00_scope.md R5). -/
theorem one_le_nominalCycles {d : Delay} {n : Nat} (h : d.nominalCycles = some n) : 1 ≤ n := by
  have up : ∀ us : Nat, 1 ≤ us → 1 ≤ (us * Config.clockHz + 999999) / 1000000 := fun us hus => by
    have : 1 * 1 ≤ us * Config.clockHz := Nat.mul_le_mul hus (Nat.succ_le_succ (Nat.zero_le _))
    omega
  cases d with
  | start => cases h
  | _ =>
    cases h
    exact up _ (by decide)

@[simp] theorem waveform_nil (l : Levels) : waveform l [] = [] := rfl

@[simp] theorem waveform_cons (l : Levels) (a : PinAction) (as : List PinAction) :
    waveform l (a :: as) = (a.levelsAfter l, a.cycles) :: waveform (a.levelsAfter l) as := rfl

theorem waveform_append (l : Levels) (as bs : List PinAction) :
    waveform l (as ++ bs) = waveform l as ++ waveform (levelsAfter l as) bs := by
  induction as generalizing l with
  | nil => rfl
  | cons a as ih => simp [ih]

@[simp] theorem levelsInCycles_nil (l : Levels) : levelsInCycles l [] = [] := rfl

@[simp] theorem levelsInCycles_cons (l : Levels) (a : PinAction) (as : List PinAction) :
    levelsInCycles l (a :: as) =
      List.replicate a.cycles (a.levelsAfter l) ++ levelsInCycles (a.levelsAfter l) as := rfl

/-- A list of actions shows a level in each of its cycles. -/
theorem length_levelsInCycles (l : Levels) (as : List PinAction) :
    (levelsInCycles l as).length = duration as := by
  induction as generalizing l with
  | nil => rfl
  | cons a as ih => simp [ih]

/-- Every action lasts at least one cycle (10_state.md R27). -/
theorem one_le_cycles (a : PinAction) : 1 ≤ a.cycles := by
  cases a <;> simp [PinAction.cycles, Config.delayCycles]

theorem length_bitSeq (v : Bool) : (bitSeq v).length = 6 := rfl

theorem length_byteSeq (b : Byte) : (byteSeq b).length = 55 := by
  simp [byteSeq, bitsMsbFirst, bitSeq, ackSeq]

theorem length_txnSeq (dev idx : Byte) (v : Half) : (txnSeq dev idx v).length = 231 := by
  simp [txnSeq, txnBytes, length_byteSeq, startSeq, stopSeq]

theorem length_freqSeq (dev : Byte) (tw : Word) (rs : Half) : (freqSeq dev tw rs).length = 693 := by
  simp [freqSeq, length_txnSeq]

/-- A bit cell that begins with the clock low shows its bit at one rising clock edge and nothing else. -/
theorem lineEvents_bitSeq (d v : Bool) :
    lineEvents { sda := d, scl := false } (bitSeq v) = [.bit v] := by
  cases d <;> cases v <;> rfl

theorem levelsAfter_bitSeq (l : Levels) (v : Bool) :
    levelsAfter l (bitSeq v) = { sda := v, scl := false } := rfl

/-- A byte sequence ends with both outputs 0, whatever the levels before it (40_serial_bus.md R68). -/
theorem levelsAfter_byteSeq (l : Levels) (b : Byte) : levelsAfter l (byteSeq b) = .bothLow := by
  rw [byteSeq, levelsAfter_append]
  rfl

end Sys2Proof.Machine
end

