-- ==== Sys2Proof/Laws/Step.lean ====
section
/-! SUPPORT. What a step is, turn by turn and access by access, and what each update leaves alone. -/

namespace Sys2Proof.Machine

/-! ### Turns -/

/-- The host's turn is its next access. -/
theorem step_of_hostNext {s : State} {a : HostAccess} {rest : List HostAccess} (h : s.hostNext a rest) :
    step s = hostAccess a (takeTurn s) := by
  obtain ⟨hr, ht, hh⟩ := h
  simp only [step, ht, runTurn, takeTurn_resetLine, hr, hostTurn, takeTurn_host, hh]
  rfl

theorem step_of_sequencer {s : State} (hr : s.resetLine = false) (ht : s.nextTurn = .sequencer) :
    step s = .next (sequencerStep (takeTurn s)) := by
  simp only [step, ht, runTurn, takeTurn_resetLine, hr]
  rfl

theorem step_of_clock {s : State} (hr : s.resetLine = false) (ht : s.nextTurn = .clock) :
    step s = .next (clockCycle (takeTurn s)) := by
  simp only [step, ht, runTurn, takeTurn_resetLine, hr]
  rfl

/-- A step takes one turn. -/
theorem step_turns {s t : State} (h : step s = .next t) : t.turns = s.turns.tail := by
  cases step_cases h with
  | sequencer run turn =>
    cases hp : s.pending with
    | nil => rw [sequencerStep_nil (by exact hp)]; rfl
    | cons a as => rw [sequencerStep_cons (a := a) (rest := as) (by exact hp)]; simp
  | accepted off rest v i ready turn head at_ word => rw [commandEffect_frame]; rfl
  | _ => rfl

/-! ### Host accesses -/

theorem completeAccess_takeTurn {s : State} {a : HostAccess} {rest : List HostAccess} (h : s.host = a :: rest) :
    completeAccess (takeTurn s) = s.afterAccess rest := by
  simp [completeAccess, takeTurn, State.afterAccess, h]

/-- A command write to a ready block is accepted. -/
theorem step_of_commandWrite {s : State} {w : Word} {rest : List HostAccess}
    (h : s.hostNext (commandWrite w) rest) (hp : s.pending = []) :
    step s = acceptWord w (s.afterAccess rest) := by
  rw [step_of_hostNext h, ← completeAccess_takeTurn h.2.2]
  have hr : (takeTurn s).ready = true := ready_iff.2 ⟨h.1, hp⟩
  simp [commandWrite, hostAccess, resolve, regAt, writeReg, writeCmd, hr]

/-- Acceptance of a word that decodes is the command's effect. -/
theorem acceptWord_of_ok {w : Word} {i : Instr} {s : State} (hr : s.ready = true) (hd : decode w = .ok i) :
    acceptWord w s = .next (commandEffect i s) := by
  simp only [acceptWord, hd, exec_eq_whenReady, whenReady_of_ready hr]

/-- The access at the head of a command-write case is `MemWrite(BASE, 4, w)` on a ready block. -/
theorem hostNext_of_accepted {s : State} {off : Int} {v : Word} {rest : List HostAccess} (ready : s.ready = true)
    (turn : s.nextTurn = .host) (head : s.host = .write off 4 v :: rest) (at_ : regAt off = some .cmd) :
    s.hostNext (memWrite Config.base v) rest ∧ s.pending = [] := by
  obtain ⟨hr, hp⟩ := ready_iff.1 ready
  have h0 := regAt_eq_cmd at_
  subst h0
  rw [memWrite_base]
  exact ⟨⟨hr, turn, head⟩, hp⟩

/-! ### What a sequencer step and a command leave alone -/

/-- A sequencer step writes only the outputs, the pending list, the position in a `Wait` and the trace. -/
theorem sequencerStep_frame (s : State) :
    sequencerStep s = { sequencerStep s with
      badCmd := s.badCmd, tuneWord := s.tuneWord, rangeSel := s.rangeSel, resetLine := s.resetLine,
      host := s.host, turns := s.turns, reads := s.reads } := by
  cases hp : s.pending with
  | nil => rw [sequencerStep_nil hp]
  | cons a as => rw [sequencerStep_cons hp]; cases a <;> rfl

theorem sequencerStep_pending {s : State} {a : PinAction} {as : List PinAction} (hp : s.pending = a :: as) :
    (sequencerStep s).pending = as := by
  rw [sequencerStep_cons hp]; simp

theorem sequencerStep_waitPos {s : State} {a : PinAction} {as : List PinAction} (hp : s.pending = a :: as) :
    (sequencerStep s).waitPos = 0 := by
  rw [sequencerStep_cons hp]; simp

theorem sequencerStep_trace {s : State} {a : PinAction} {as : List PinAction} (hp : s.pending = a :: as) :
    (sequencerStep s).trace = s.trace ++ [a] := by
  rw [sequencerStep_cons hp]; simp

theorem sequencerStep_levels {s : State} {a : PinAction} {as : List PinAction} (hp : s.pending = a :: as) :
    (sequencerStep s).levels = a.levelsAfter s.levels := by
  rw [sequencerStep_cons hp, levels_finishAction, levels_performAction]

@[simp] theorem commandEffect_trace (i : Instr) (s : State) : (commandEffect i s).trace = s.trace := by
  cases i <;> rfl

@[simp] theorem commandEffect_waitPos (i : Instr) (s : State) : (commandEffect i s).waitPos = s.waitPos := by
  cases i <;> rfl

@[simp] theorem commandEffect_badCmd (i : Instr) (s : State) : (commandEffect i s).badCmd = s.badCmd := by
  cases i <;> rfl

@[simp] theorem commandEffect_resetLine (i : Instr) (s : State) : (commandEffect i s).resetLine = s.resetLine := by
  cases i <;> rfl

@[simp] theorem commandEffect_host (i : Instr) (s : State) : (commandEffect i s).host = s.host := by
  cases i <;> rfl

@[simp] theorem commandEffect_turns (i : Instr) (s : State) : (commandEffect i s).turns = s.turns := by
  cases i <;> rfl

@[simp] theorem commandEffect_reads (i : Instr) (s : State) : (commandEffect i s).reads = s.reads := by
  cases i <;> rfl

@[simp] theorem commandEffect_levels (i : Instr) (s : State) : (commandEffect i s).levels = s.levels := by
  cases i <;> rfl

/-! ### `STATUS` -/

/-- Bit 0 of `STATUS` is `BUSY` (10_state.md R18). -/
theorem statusWord_bit_zero (s : State) : (statusWord s).getLsbD 0 = s.busy := by
  unfold statusWord
  generalize s.busy = b
  cases s.sclOut <;> cases s.sdaOut <;> cases s.badCmd <;> cases b <;> decide

/-! ### Operands -/

/-- `channel >> 1` is half the channel, rounded down (41_frequency_synth.md R85). -/
theorem halfChannel_eq (channel : Byte) : halfChannel channel = BitVec.ofNat 32 (channel.toNat / 2) := by
  apply BitVec.eq_of_toNat_eq
  have := channel.isLt
  simp [halfChannel, Nat.shiftRight_eq_div_pow]
  omega

theorem highByte_eq (v : Half) : highByte v = (v >>> 8).setWidth 8 := by
  apply BitVec.eq_of_toNat_eq
  simp [highByte, Nat.shiftRight_eq_div_pow]

theorem lowByte_eq (v : Half) : lowByte v = v.setWidth 8 := by
  apply BitVec.eq_of_toNat_eq
  simp [lowByte]

theorem highHalf_eq (tw : Word) : highHalf tw = (tw >>> 16).setWidth 16 := by
  apply BitVec.eq_of_toNat_eq
  simp [highHalf, Nat.shiftRight_eq_div_pow]

theorem lowHalf_eq (tw : Word) : lowHalf tw = tw.setWidth 16 := by
  apply BitVec.eq_of_toNat_eq
  simp [lowHalf]

end Sys2Proof.Machine
end

