-- ==== Sys2Proof/Tests/Slice0.lean ====
section
/-! SUPPORT. Tests of the model against the vectors of 95_test_vectors.md, and for every obligation that has
hypotheses a concrete state and operands that meet them. -/

namespace Sys2Proof.Tests

open Sys2Proof Sys2Proof.Machine

/-! ### Well-formedness: each check refuses an ill-formed line (30_encoding.md R62) -/

theorem test_wellFormed_refuses_byte_256 : AsmLine.wellFormed (.txbyte 256) = false := by decide
theorem test_wellFormed_refuses_idx_256 : AsmLine.wellFormed (.wrreg 256 0) = false := by decide
theorem test_wellFormed_refuses_value_65536 : AsmLine.wellFormed (.wrreg 0 65536) = false := by decide
theorem test_wellFormed_refuses_tune_band_256 : AsmLine.wellFormed (.tune .receive 256 0) = false := by decide
theorem test_wellFormed_refuses_tune_channel_256 : AsmLine.wellFormed (.tune .receive 0 256) = false := by decide
theorem test_wellFormed_refuses_wrfreq_band_256 : AsmLine.wellFormed (.wrfreq .transmit 256 0) = false := by decide
theorem test_wellFormed_refuses_wrfreq_channel_256 :
    AsmLine.wellFormed (.wrfreq .transmit 0 256) = false := by decide
theorem test_wellFormed_refuses_xfer_idx_256 : AsmLine.wellFormed (.xfer 256 0) = false := by decide
theorem test_wellFormed_refuses_xfer_value_65536 : AsmLine.wellFormed (.xfer 0 65536) = false := by decide
theorem test_wellFormed_accepts_the_largest :
    AsmLine.wellFormed (.wrreg 255 65535) = true ∧ AsmLine.wellFormed (.tune .transmit 255 255) = true := by decide
/-- The operands' types already have the fields' widths, so the command's own check is tried on its parts. -/
theorem test_fitsField_refuses_the_first_too_large :
    fitsField 8 255 = true ∧ fitsField 8 256 = false ∧ fitsField 16 65536 = false := by decide

/-! ### Decoding: the words of 95_test_vectors.md section 2.1 -/

theorem test_decode_start : decode 0x10000000#32 = .ok .start := by rfl
theorem test_decode_stop : decode 0x20000000#32 = .ok .stop := by rfl
theorem test_decode_txbyte : decode 0x300000A5#32 = .ok (.txbyte 0xA5#8) := by rfl
theorem test_decode_wrreg : decode 0x40131234#32 = .ok (.wrreg 19#8 0x1234#16) := by rfl
theorem test_decode_wrreg_largest : decode 0x40FFFFFF#32 = .ok (.wrreg 255#8 0xFFFF#16) := by rfl
theorem test_decode_tune : decode 0x5100020A#32 = .ok (.tune .transmit 2#8 10#8) := by rfl
theorem test_decode_tune_largest_channel : decode 0x500008FF#32 = .ok (.tune .receive 8#8 255#8) := by rfl
theorem test_decode_wrfreq : decode 0x60000907#32 = .ok (.wrfreq .receive 9#8 7#8) := by rfl

/-- Whether a word is bad. -/
def isBad (w : Word) : Bool :=
  match decode w with
  | .ok _ => false
  | .error _ => true

theorem test_decode_bad_words :
    [0x00000000#32, 0x10000001#32, 0x2FFFFFFF#32, 0x30000100#32, 0x41131234#32, 0x50010000#32, 0x52000000#32,
      0x61FF0063#32, 0x70000000#32, 0xF0000000#32].all isBad = true := by decide

theorem test_encode_worked :
    encode (.wrreg 19#8 0x1234#16) = 0x40131234#32 ∧ encode (.txbyte 0xA5#8) = 0x300000A5#32 ∧
      encode (.tune .transmit 2#8 10#8) = 0x5100020A#32 ∧
      encode (.wrfreq .receive 9#8 7#8) = 0x60000907#32 := by decide

theorem test_decodeTableWord :
    decodeTableWord 32 0x40131234 = some (.wrreg 19#8 0x1234#16) ∧ decodeTableWord 32 0 = none ∧
      decodeTableWord 64 0x110000000 = none := by decide

/-! ### The assembler (30_encoding.md R62 to R64) -/

theorem test_parse_worked :
    parseLine "WRREG 19, 0x1234".toList = some (.wrreg 19 0x1234) ∧
    parseLine "txbyte 0xA5".toList = some (.txbyte 0xA5) ∧
    parseLine "TUNE tx, 2, 10".toList = some (.tune .transmit 2 10) ∧
    parseLine "WRFREQ rx, 9, 7".toList = some (.wrfreq .receive 9 7) ∧
    parseLine "TUNE 2, 10".toList = none := by decide

theorem test_assemble_worked :
    assemble 0xE2#8 (.tune .transmit 2 10) = some [0x5100020A#32] ∧
    assemble 0xE2#8 (.txbyte 256) = none := by decide

/-- The words of program P1 (95_test_vectors.md section 3). -/
theorem test_assemble_xfer : assemble 0xE2#8 (.xfer 5 0x1234) =
    some [0x10000000#32, 0x300000E2#32, 0x30000005#32, 0x30000012#32, 0x30000034#32, 0x20000000#32] := by decide

/-! ### A placed word runs first after reset -/

theorem test_step_start : step (State.reset.withFetchWord 32 0x10000000) = exec .start State.reset := by rfl
theorem test_step_stop : step (State.reset.withFetchWord 32 0x20000000) = exec .stop State.reset := by rfl
theorem test_step_txbyte :
    step (State.reset.withFetchWord 32 0x300000A5) = exec (.txbyte 0xA5#8) State.reset := by rfl
theorem test_step_wrreg :
    step (State.reset.withFetchWord 32 0x40131234) = exec (.wrreg 19#8 0x1234#16) State.reset := by rfl
theorem test_step_tune :
    step (State.reset.withFetchWord 32 0x5100020A) = exec (.tune .transmit 2#8 10#8) State.reset := by rfl
theorem test_step_wrfreq :
    step (State.reset.withFetchWord 32 0x60000907) = exec (.wrfreq .receive 9#8 7#8) State.reset := by rfl

/-! ### STATUS while START is performed, and after bad words (95_test_vectors.md sections 2.2 and 2.4) -/

/-- Reset with the host about to write these words to `CMD`. -/
def fromReset (ws : List Word) : State := { State.reset with host := ws.map commandWrite }

/-- `STATUS` after `k` steps. -/
def statusAfter (k : Nat) (s : State) : Option Word :=
  match run k s with
  | .next t => some (statusWord t)
  | .fault _ => none
  | .refused _ => none

theorem test_start_status_row_by_row :
    (List.range' 1 8).map (fun k => statusAfter k (fromReset [0x10000000#32])) =
      [some 0x0D#32, some 0x0D#32, some 0x0D#32, some 0x0D#32, some 0x0D#32, some 0x09#32, some 0x09#32,
        some 0x00#32] := by decide

theorem test_start_stop_status : statusAfter 13 (fromReset [0x10000000#32, 0x20000000#32]) = some 0x0C#32 := by
  decide

theorem test_bad_words_status :
    statusAfter 1 (fromReset [0x00000000#32]) = some 0x0E#32 ∧
    statusAfter 2 (fromReset [0x00000000#32, 0x70000000#32]) = some 0x0E#32 := by decide

/-- A read of `CMD` gives 0, a write to `TUNE_WORD` is ignored. -/
theorem test_cmd_reads_zero_and_tune_word_ignores_writes :
    run 2 { State.reset with host := [.write 0x8 4 0x12345678#32, .read 0x0 4] } =
      .next { State.reset with reads := [0#32] } := by rfl

/-- A reset in the middle of a TXBYTE. -/
theorem test_reset_ends_a_byte :
    run 4 { fromReset [0x300000A5#32] with turns := [.host, .sequencer, .sequencer, .assertReset] } =
      .next { State.reset with resetLine := true } := by rfl

theorem test_undefined_accesses :
    step { State.reset with host := [.read 0x4 2] } = .refused (.accessWidth 2) ∧
    step { State.reset with host := [.write 0x2 4 0#32] } = .refused (.misalignedAddress 0x2) ∧
    step { State.reset with host := [.read 0x10 4] } = .fault (.outsideWindow 0x10) := ⟨rfl, rfl, rfl⟩

/-! ### Line strings (95_test_vectors.md section 2.2), with the example device address 0xE2 -/

/-- A line string's digits. -/
def digits (ds : List Nat) : List LineEvent := ds.map (fun d => .bit (d == 1))

theorem test_line_start_stop : lineEvents .idle (startSeq ++ stopSeq) = [.start, .bit false, .stop] := by decide
theorem test_line_stop_alone : lineEvents .idle stopSeq = [] := by decide
theorem test_line_byte_without_start :
    lineEvents .idle (byteSeq 0xA5#8) = digits [0, 1, 0, 0, 1, 0, 1, 1] ∧
    lineEvents .idle (byteSeq 0x00#8) = .start :: digits [0, 0, 0, 0, 0, 0, 0, 1] := by decide
theorem test_line_repeated_start :
    lineEvents .idle (startSeq ++ byteSeq 0xA5#8 ++ startSeq) =
      .start :: digits [1, 0, 1, 0, 0, 1, 0, 1, 1] ++ [.bit true, .start] := by decide
theorem test_line_wrreg :
    lineEvents .idle (txnSeq 0xE2#8 19#8 0x1234#16) =
      .start :: digits [1, 1, 1, 0, 0, 0, 1, 0, 1] ++ digits [0, 0, 0, 1, 0, 0, 1, 1, 1] ++
        digits [0, 0, 0, 1, 0, 0, 1, 0, 1] ++ digits [0, 0, 1, 1, 0, 1, 0, 0, 1] ++
        [.bit false, .stop] := by decide

/-! ### The synthesizer (95_test_vectors.md section 2.3), with the example table `EX` -/

/-- The example table `EX`. -/
def exampleTable : BandTable := fun b =>
  #v[{ rxBase := 0x00100000#32, txBase := 0x00200000#32, step := 0x100#32, rangeSel := 0x10#16 : BandEntry },
     { rxBase := 0x01100000#32, txBase := 0x01200000#32, step := 0x200#32, rangeSel := 0x11#16 },
     { rxBase := 0x02100000#32, txBase := 0x02200000#32, step := 0x300#32, rangeSel := 0x12#16 },
     { rxBase := 0x03100000#32, txBase := 0x03200000#32, step := 0x400#32, rangeSel := 0x13#16 },
     { rxBase := 0x04100000#32, txBase := 0x04200000#32, step := 0x500#32, rangeSel := 0x14#16 },
     { rxBase := 0x05100000#32, txBase := 0x05200000#32, step := 0x600#32, rangeSel := 0x15#16 },
     { rxBase := 0x06100000#32, txBase := 0x06200000#32, step := 0x700#32, rangeSel := 0x16#16 },
     { rxBase := 0xFFFFF000#32, txBase := 0x07200000#32, step := 0x800#32, rangeSel := 0x17#16 }][b]

theorem test_tuning_receive :
    tuningIn exampleTable .receive 0#8 99#8 = { word := 0x00103100#32, rangeSel := 0x10#16 } ∧
    tuningIn exampleTable .receive 7#8 3#8 = { word := 0xFFFFF800#32, rangeSel := 0x17#16 } ∧
    tuningIn exampleTable .receive 7#8 99#8 = { word := 0x00017800#32, rangeSel := 0x17#16 } ∧
    tuningIn exampleTable .receive 8#8 4#8 = { word := 0x00000000#32, rangeSel := 0x17#16 } ∧
    tuningIn exampleTable .receive 9#8 7#8 = { word := 0x00000800#32, rangeSel := 0x17#16 } ∧
    tuningIn exampleTable .receive 1#8 255#8 = { word := 0x0110FE00#32, rangeSel := 0x11#16 } := by decide

theorem test_tuning_transmit :
    tuningIn exampleTable .transmit 2#8 11#8 = { word := 0x02200F00#32, rangeSel := 0x12#16 } ∧
    tuningIn exampleTable .transmit 5#8 57#8 = { word := 0x0520A800#32, rangeSel := 0x15#16 } ∧
    tuningIn exampleTable .transmit 255#8 0#8 = { word := 0x07200000#32, rangeSel := 0x17#16 } := by decide

/-- The three transactions of program P3 (95_test_vectors.md section 3): registers 2, 1, 0. -/
theorem test_freqSeq_order :
    freqSeq 0xE2#8 0x00000800#32 0x17#16 =
      txnSeq 0xE2#8 2#8 0x0017#16 ++ txnSeq 0xE2#8 1#8 0x0800#16 ++ txnSeq 0xE2#8 0#8 0x0000#16 := by rfl

/-! ### Witnesses: the hypotheses of each obligation are met together -/

/-- A START all but done: its last action is pending. -/
def openStart : State :=
  { State.reset with sdaOut := false, pending := [.setScl false], trace := startSeq.take 6 }

/-- `openStart` meets the invariant. -/
theorem openStart_invariant : Invariant openStart :=
  ⟨rfl, .inl rfl, .inl rfl, .inr ⟨.start, [], startSeq.take 6, rfl, rfl⟩, fun h => nomatch h⟩

/-- A START accepted at reset, its first action done: a `Wait` is at the head. -/
def startedWait : State :=
  { State.reset with pending := startSeq.drop 1, trace := startSeq.take 1 }

theorem startedWait_invariant : Invariant startedWait :=
  ⟨rfl, .inl rfl, .inl rfl, .inr ⟨.start, [], startSeq.take 1, rfl, rfl⟩, fun h => nomatch h⟩

/-- Reset with one host access to make. -/
def resetWith (a : HostAccess) : State := { State.reset with host := [a] }

/-- The host is next with any one access it makes after reset that is enabled. -/
theorem resetWith_hostNext (a : HostAccess) : (resetWith a).hostNext a [] := by
  refine ⟨rfl, ?_, rfl⟩
  unfold State.nextTurn hostEnabled
  simp [resetWith, State.reset, State.busy]

theorem test_witness_DecodeOfEncodeIsTheCommand :
    Instr.wellFormed (.wrreg 255#8 0xFFFF#16) = true ∧ Instr.wellFormed (.wrfreq .transmit 255#8 255#8) = true := by
  decide

theorem test_witness_EncodeOfDecodedWordIsTheWord :
    decode 0x40FFFFFF#32 = .ok (.wrreg 255#8 0xFFFF#16) ∧ decode 0x6100FFFF#32 = .ok (.wrfreq .transmit 255#8 255#8) :=
  ⟨rfl, rfl⟩

theorem test_witness_DecodeFollowsTheOpcodeMap :
    decode 0x10000000#32 = .ok .start ∧ decode 0x20000000#32 = .ok .stop ∧
    decode 0x300000FF#32 = .ok (.txbyte 255#8) ∧ decode 0x40FFFFFF#32 = .ok (.wrreg 255#8 0xFFFF#16) ∧
    decode 0x5100FFFF#32 = .ok (.tune .transmit 255#8 255#8) ∧
    decode 0x6000FFFF#32 = .ok (.wrfreq .receive 255#8 255#8) ∧ isBad 0xF0000000#32 = true :=
  ⟨rfl, rfl, rfl, rfl, rfl, rfl, rfl⟩

theorem test_witness_BadWordsOnlySetTheFlag :
    (resetWith (memWrite Config.base 0x70000000#32)).hostNext (memWrite Config.base 0x70000000#32) [] ∧
    (resetWith (memWrite Config.base 0x70000000#32)).pending = [] ∧
    (∃ e, decode 0x70000000#32 = .error e) := ⟨resetWith_hostNext _, rfl, _, rfl⟩

theorem test_witness_AssembledWordsAreTheTables :
    (255 ≤ 255 ∧ 65535 ≤ 65535) ∧ ¬(256 ≤ 255) ∧ ¬(65536 ≤ 65535) := by decide

theorem test_witness_StepRunsTheAcceptedCommand :
    (resetWith (memWrite Config.base 0x10000000#32)).hostNext (memWrite Config.base 0x10000000#32) [] ∧
    (resetWith (memWrite Config.base 0x10000000#32)).pending = [] ∧ decode 0x10000000#32 = .ok .start :=
  ⟨resetWith_hostNext _, rfl, rfl⟩

theorem test_witness_StepRunsThePlacedCommand : decodeTableWord 32 0x20000000 = some .stop := by rfl

theorem test_witness_StartQueuesTheStartSequence :
    State.reset.resetLine = false ∧ State.reset.pending = [] := ⟨rfl, rfl⟩

theorem test_witness_StopQueuesTheStopSequence :
    State.reset.resetLine = false ∧ State.reset.pending = [] := ⟨rfl, rfl⟩

theorem test_witness_TxbyteQueuesTheByteSequence :
    State.reset.resetLine = false ∧ State.reset.pending = [] := ⟨rfl, rfl⟩

theorem test_witness_WrregQueuesOneTransaction :
    State.reset.resetLine = false ∧ State.reset.pending = [] := ⟨rfl, rfl⟩

theorem test_witness_CommandsWaitOnABusyBlock :
    openStart.pending ≠ [] ∧ (assertReset openStart).resetLine = true := ⟨fun h => (nomatch h), rfl⟩

theorem test_witness_TuneLatchesTheTuning :
    State.reset.resetLine = false ∧ State.reset.pending = [] ∧ (7#8).toNat < 8 ∧ ¬((8#8).toNat < 8) := by decide

theorem test_witness_WrfreqLatchesAndQueuesThreeTransactions :
    State.reset.resetLine = false ∧ State.reset.pending = [] ∧ (7#8).toNat < 8 ∧ ¬((8#8).toNat < 8) := by decide

theorem test_witness_TuningWordIsTheSumModulo32Bits :
    (∀ (b : Fin numBands) (m : Mode),
      (baseOf m ((fun _ => exampleTable 0 : BandTable) b)).toNat +
        ((fun _ => exampleTable 0 : BandTable) b).step.toNat * 49 < 2 ^ 32) ∧
    (99#8).toNat ≤ 99 ∧ State.reset.resetLine = false ∧ State.reset.pending = [] :=
  ⟨fun _ m => by cases m <;> (dsimp only; decide), by decide, rfl, rfl⟩

theorem test_witness_BandsOutOfRangeFallBackToTheLast :
    8 ≤ (8#8).toNat ∧ 8 ≤ (255#8).toNat ∧
    exec (.tune .receive 8#8 0#8) openStart = .next openStart ∧ exec (.wrfreq .receive 8#8 0#8) openStart = .next openStart ∧
    (7#8).toNat < 8 ∧ (1#8).toNat < 2 := ⟨by decide, by decide, rfl, rfl, by decide, by decide⟩

theorem test_witness_ChannelsCountByHalves : (0 ≤ 127) ∧ (127 ≤ 127) := by decide

theorem test_witness_OddChannelsTuneAsTheEvenOneBelow : (0 ≤ 127) ∧ (127 ≤ 127) := by decide

/-- The host of `ResultsAreReadableAtOnce` after a command. -/
def readsResults (i : Instr) : State :=
  { State.reset with
    host := [memWrite Config.base (encode i), memRead (Config.base + 8), memRead (Config.base + 12),
      memRead (Config.base + 4)],
    turns := List.replicate 4 .host }

theorem test_witness_ResultsAreReadableAtOnce :
    (readsResults (.wrfreq .receive 9#8 7#8)).resetLine = false ∧ (readsResults (.tune .transmit 2#8 10#8)).pending = [] ∧
    (readsResults (.wrfreq .receive 9#8 7#8)).pending = [] ∧ (readsResults (.tune .transmit 2#8 10#8)).resetLine = false ∧
    (readsResults (.wrfreq .receive 9#8 7#8)).turns = List.replicate 4 .host ∧
    (readsResults (.tune .transmit 2#8 10#8)).turns = List.replicate 4 .host := ⟨rfl, rfl, rfl, rfl, rfl, rfl⟩

theorem test_witness_ResultsChangeOnlyByTuneWrfreqOrReset :
    ∃ t, step (State.reset.withFetchWord 32 0x60000907) = .next t := ⟨_, rfl⟩

theorem test_witness_StatusReadsItsFields :
    (resetWith (memRead (Config.base + 4))).hostNext (memRead (Config.base + 4)) [] ∧
    (resetWith (memWrite (Config.base + 4) 1#32)).hostNext (memWrite (Config.base + 4) 1#32) [] :=
  ⟨resetWith_hostNext _, resetWith_hostNext _⟩

theorem test_witness_WindowReadsReturnTheRegisters :
    (resetWith (memRead Config.base)).hostNext (memRead Config.base) [] ∧
    (resetWith (memRead (Config.base + 0x4))).hostNext (memRead (Config.base + 0x4)) [] ∧
    (resetWith (memRead (Config.base + 0x8))).hostNext (memRead (Config.base + 0x8)) [] ∧
    (resetWith (memRead (Config.base + 0xC))).hostNext (memRead (Config.base + 0xC)) [] ∧
    (resetWith (memWrite (Config.base + 0x4) 1#32)).hostNext (memWrite (Config.base + 0x4) 1#32) [] ∧
    (resetWith (memWrite (Config.base + 0x8) 1#32)).hostNext (memWrite (Config.base + 0x8) 1#32) [] ∧
    (resetWith (memWrite (Config.base + 0xC) 1#32)).hostNext (memWrite (Config.base + 0xC) 1#32) [] := by
  simp only [resetWith_hostNext, and_self]

theorem test_witness_UndefinedAccessesAreRefused :
    (resetWith (.read (0 - Config.base) 2)).hostNext (.read (0 - Config.base) 2) [] ∧ 2 ≠ 4 ∧ 0 % 4 = 0 ∧
    (resetWith (.write ((3 : Nat) - Config.base) 4 0#32)).hostNext (.write ((3 : Nat) - Config.base) 4 0#32) [] ∧
    3 % 4 ≠ 0 :=
  ⟨resetWith_hostNext _, by decide, by decide, resetWith_hostNext _, by decide⟩

/-- The first address after the window; and one below it, where `BASE` is not 0. -/
theorem test_witness_AccessesOutsideTheWindowFault :
    ((resetWith (memRead (Config.base + 16))).hostNext (memRead (Config.base + 16)) [] ∧
      (resetWith (memWrite (Config.base + 16) 0#32)).hostNext (memWrite (Config.base + 16) 0#32) [] ∧
      (Config.base + 16) % 4 = 0 ∧ Config.base + 16 ≤ Config.base + 16) ∧
    (0 < Config.base → (resetWith (memRead (Config.base - 4))).hostNext (memRead (Config.base - 4)) [] ∧
      (Config.base - 4) % 4 = 0 ∧ Config.base - 4 < Config.base) := by
  refine ⟨⟨resetWith_hostNext _, resetWith_hostNext _, ?_, le_refl _⟩, fun h => ⟨resetWith_hostNext _, ?_, by omega⟩⟩
  · unfold Config.base; omega
  · unfold Config.base at h ⊢; omega

theorem test_witness_ReadsAndSequencerStepsCommute :
    openStart.resetLine = false ∧ { openStart with host := [.read 0xC 4] }.host = [HostAccess.read 0xC 4] ∧
    (regAt 0xC).isSome = true ∧ (regAt 0x0).isSome = true := by decide

theorem test_witness_SequencerPerformsTheHeadAction :
    (State.reset.resetLine = false ∧ State.reset.nextTurn = .sequencer ∧ State.reset.pending = []) ∧
    (openStart.nextTurn = .sequencer ∧ openStart.pending = [.setScl false]) ∧
    (startedWait.nextTurn = .sequencer ∧ startedWait.pending = .wait .start :: startSeq.drop 2) ∧
    ({ startedWait with pending := startSeq }.nextTurn = .sequencer ∧
      { startedWait with pending := startSeq }.pending = .setSda true :: startSeq.drop 1) := by decide

theorem test_witness_PendingMovesOnlyForward :
    (∃ t, step openStart = .next t) ∧
    openStart.resetLine = false ∧ openStart.nextTurn = .sequencer ∧ openStart.pending ≠ [] :=
  ⟨⟨_, rfl⟩, rfl, rfl, fun h => nomatch h⟩

theorem test_witness_BusyFollowsThePendingList :
    ((resetWith (memWrite Config.base 0x5100020A#32)).hostNext (memWrite Config.base 0x5100020A#32) [] ∧
      (resetWith (memWrite Config.base 0x5100020A#32)).pending = [] ∧
      decode 0x5100020A#32 = .ok (.tune .transmit 2#8 10#8)) ∧
    (openStart.resetLine = false ∧ openStart.nextTurn = .sequencer ∧ openStart.pending = [.setScl false]) :=
  ⟨⟨resetWith_hostNext _, rfl, rfl⟩, rfl, rfl, rfl⟩

theorem test_witness_CommandsArePerformedInOrder :
    Turn.assertReset ∉ (fromReset [0x10000000#32, 0x20000000#32]).turns ∧
    ∃ t, run 12 (fromReset [0x10000000#32, 0x20000000#32]) = .next t := ⟨by decide, _, rfl⟩

theorem test_witness_SequencerDrainsThePendingList :
    Invariant { openStart with turns := [.sequencer] } ∧ openStart.resetLine = false ∧
    { openStart with turns := [.sequencer] }.turns = List.replicate openStart.pending.length .sequencer :=
  ⟨⟨rfl, .inl rfl, .inl rfl, .inr ⟨.start, [], startSeq.take 6, rfl, rfl⟩, fun h => nomatch h⟩, rfl, rfl⟩

/-- Both clauses: one clock turn for the one cycle left, and none. -/
theorem test_witness_ClockDrainsInExactlyTheCycles :
    (Invariant { openStart with turns := [.clock] } ∧ openStart.resetLine = false ∧
      { openStart with turns := [.clock] }.turns = List.replicate 1 .clock ∧
      1 = cyclesLeft { openStart with turns := [.clock] }) ∧
    (Invariant openStart ∧ openStart.turns = List.replicate 0 .clock ∧ 0 < cyclesLeft openStart) :=
  ⟨⟨⟨rfl, .inl rfl, .inl rfl, .inr ⟨.start, [], startSeq.take 6, rfl, rfl⟩, fun h => nomatch h⟩, rfl, rfl, rfl⟩,
    openStart_invariant, rfl, by decide⟩

/-- `openStart` with a stalled command write. -/
def stalled (turns : List Turn) : State :=
  { openStart with host := [memWrite Config.base 0x20000000#32], turns := turns }

theorem test_witness_StalledWriteIsAcceptedAfterThePendingActions :
    ((stalled [.host]).resetLine = false ∧ (stalled [.host]).pending ≠ [] ∧
      (stalled [.host]).host = [memWrite Config.base 0x20000000#32] ∧ (stalled [.host]).nextTurn = .host) ∧
    ((stalled []).resetLine = false ∧ (stalled []).pending ≠ [] ∧
      (stalled []).host = [memWrite Config.base 0x20000000#32] ∧ (stalled []).turns = []) :=
  ⟨⟨rfl, fun h => (nomatch h), rfl, rfl⟩, rfl, fun h => (nomatch h), rfl, rfl⟩

theorem test_witness_CommandDurations : ∃ e, decode 0x70000000#32 = .error e := ⟨_, rfl⟩

theorem test_witness_StopsAreFollowedByTheGap :
    Instr.mnemonic .stop = "STOP" ∧ Instr.mnemonic (.wrreg 19#8 0x1234#16) = "WRREG" ∧
    Instr.mnemonic (.wrfreq .receive 9#8 7#8) = "WRFREQ" := ⟨rfl, rfl, rfl⟩

/-- One clock turn that ends the last action, and one in a `Wait`; then all the cycles left. -/
theorem test_witness_WaveformLastsAsTheActionsDo :
    (Invariant { openStart with turns := [.clock] } ∧ openStart.resetLine = false ∧
      0 < cyclesLeft { openStart with turns := [.clock] } ∧
      { openStart with turns := [.clock] }.turns = List.replicate (0 + 1) .clock) ∧
    (Invariant { startedWait with turns := [.clock] } ∧ startedWait.resetLine = false ∧
      0 < cyclesLeft { startedWait with turns := [.clock] } ∧
      { startedWait with turns := [.clock] }.turns = List.replicate (0 + 1) .clock) ∧
    { openStart with turns := [.clock] }.turns =
      List.replicate (cyclesLeft { openStart with turns := [.clock] }) .clock := by
  refine ⟨⟨⟨rfl, .inl rfl, .inl rfl, .inr ⟨.start, [], startSeq.take 6, rfl, rfl⟩, fun h => nomatch h⟩, rfl,
    by decide, rfl⟩, ⟨⟨rfl, .inl rfl, .inl rfl, .inr ⟨.start, [], startSeq.take 1, rfl, rfl⟩,
    fun h => nomatch h⟩, rfl, ?_, rfl⟩, rfl⟩
  have h := one_le_cycles (.wait .start)
  simp [cyclesLeft, startedWait, startSeq, State.reset]
  omega

/-- The invariant with an idle block: after reset, and with an open bus. -/
theorem test_witness_WrregPutsItsFrameOnTheLine :
    (Invariant State.reset ∧ State.reset.resetLine = false ∧ State.reset.pending = []) ∧
    (Invariant (drained openStart) ∧ (drained openStart).resetLine = false ∧ (drained openStart).pending = [] ∧
      (drained openStart).levels ≠ .idle) :=
  ⟨⟨⟨rfl, .inr rfl, .inl rfl, .inl rfl, fun h => nomatch h⟩, rfl, rfl⟩,
    ⟨rfl, .inl rfl, .inl rfl, .inl rfl, fun h => nomatch h⟩, rfl, rfl, by decide⟩

theorem test_witness_WrregEqualsTheSixCommands :
    Invariant State.reset ∧ State.reset.resetLine = false ∧ State.reset.pending = [] :=
  test_witness_WrregPutsItsFrameOnTheLine.1

theorem test_witness_WrfreqEqualsTuneAndThreeWrregs :
    Invariant State.reset ∧ State.reset.resetLine = false ∧ State.reset.pending = [] :=
  test_witness_WrregPutsItsFrameOnTheLine.1

theorem test_witness_BadcmdIsStickyUntilReset :
    (∃ t, step (fromReset [0x70000000#32]) = .next t ∧ State.reset.badCmd = false ∧ t.badCmd = true) ∧
    (∃ t, step { openStart with badCmd := true } = .next t ∧ { openStart with badCmd := true }.nextTurn ≠ .assertReset) ∧
    (∃ t, step { openStart with turns := [.assertReset] } = .next t ∧
      { openStart with turns := [.assertReset] }.nextTurn = .assertReset) ∧
    (∃ t e, step (resetWith (memWrite Config.base 0x70000000#32)) = .next t ∧
      (resetWith (memWrite Config.base 0x70000000#32)).hostNext (memWrite Config.base 0x70000000#32) [] ∧
      (resetWith (memWrite Config.base 0x70000000#32)).pending = [] ∧ decode 0x70000000#32 = .error e) := by
  refine ⟨⟨_, rfl, rfl, rfl⟩, ⟨_, rfl, by decide⟩, ⟨_, rfl, rfl⟩, ?_⟩
  exact ⟨_, _, by rw [memWrite_base]; rfl, resetWith_hostNext _, rfl, rfl⟩

theorem test_witness_ResetEndsEverythingAtOnce :
    { openStart with turns := [.assertReset] }.nextTurn = .assertReset ∧
    ((assertReset openStart).resetLine = true ∧ (assertReset openStart).nextTurn ≠ .assertReset ∧
      (assertReset openStart).nextTurn ≠ .releaseReset) ∧
    { assertReset openStart with turns := [.releaseReset] }.nextTurn = .releaseReset ∧
    ((stalled [.host, .assertReset, .host, .releaseReset, .host]).pending ≠ [] ∧
      (stalled [.host, .assertReset, .host, .releaseReset, .host]).resetLine = false ∧
      (stalled [.host, .assertReset, .host, .releaseReset, .host]).host = [memWrite Config.base 0x20000000#32] ∧
      (stalled [.host, .assertReset, .host, .releaseReset, .host]).turns =
        [.host, .assertReset, .host, .releaseReset, .host]) :=
  ⟨rfl, ⟨rfl, by decide, by decide⟩, rfl, fun h => (nomatch h), rfl, rfl, rfl⟩

theorem test_witness_IdleBlockDoesNothing :
    State.reset.host = [] ∧ State.reset.pending = [] ∧ State.reset.turns = [] := ⟨rfl, rfl, rfl⟩

theorem test_witness_DefinedAccessesNeverStop :
    { State.reset with host := [.read 0xC 4, .write 0x0 4 0#32, .write 0x4 4 1#32] }.hostDefined = true := by decide

theorem test_witness_EveryStepKeepsTheInvariant :
    (Invariant openStart ∧ ∃ t, step openStart = .next t) ∧
    (Invariant startedWait ∧ ∃ t, step startedWait = .next t) :=
  ⟨⟨openStart_invariant, _, rfl⟩, startedWait_invariant, _, rfl⟩

end Sys2Proof.Tests
end

section
/-! PROOFS of the family 10_state.md: the window registers, `STATUS`, `BUSY`, `BADCMD` and the reset values. -/

namespace Sys2Proof.Machine

/-! ### The fields of `STATUS` (10_state.md R18) -/

/-- Above `BUSY` (`statusWord_bit_zero`): `BADCMD`, `SDA_OUT`, `SCL_OUT`, and zeros in 31:4. -/
theorem statusWord_fields (s : State) :
    (statusWord s).getLsbD 1 = s.badCmd ∧ (statusWord s).getLsbD 2 = s.sdaOut ∧
      (statusWord s).getLsbD 3 = s.sclOut ∧ statusWord s >>> 4 = 0#32 := by
  unfold statusWord
  generalize s.busy = busy
  cases s.sclOut <;> cases s.sdaOut <;> cases s.badCmd <;> cases busy <;> decide

/-- `BUSY` reads 1 exactly while something is pending (10_state.md R19). -/
theorem statusWord_busy_iff (s : State) : (statusWord s).getLsbD 0 = true ↔ s.pending ≠ [] := by
  rw [statusWord_bit_zero, busy_eq_true_iff]

theorem statusWord_reset : statusWord State.reset = 0x0000000C#32 := rfl

/-! ### Host accesses that leave the block as it is (10_state.md R16, 20_memory.md R42) -/

/-- Taking a turn changes no window register. -/
@[simp] theorem readReg_takeTurn (r : WindowReg) (s : State) : readReg r (takeTurn s) = readReg r s := by
  cases r <;> rfl

/-- A host read of a window register returns its value and completes; nothing else changes. -/
theorem step_of_windowRead {s : State} {off : Int} {r : WindowReg} {rest : List HostAccess}
    (hreg : regAt off = some r) (h : s.hostNext (.read off 4) rest) :
    step s = .next { s.afterAccess rest with reads := s.reads ++ [readReg r s] } := by
  have hres : resolve off 4 = .next r := resolve_next_iff.2 ⟨rfl, hreg⟩
  have hhost : s.host = .read off 4 :: rest := h.2.2
  rw [step_of_hostNext h, ← completeAccess_takeTurn hhost]
  simp only [hostAccess, hres, readAccess, readReg_takeTurn]
  rfl

/-- A host write to a read-only window register completes; nothing else changes. -/
theorem step_of_readOnlyWrite {s : State} {off : Int} {r : WindowReg} {v : Word} {rest : List HostAccess}
    (hreg : regAt off = some r) (hro : r ≠ .cmd) (h : s.hostNext (.write off 4 v) rest) :
    step s = .next (s.afterAccess rest) := by
  have hres : resolve off 4 = .next r := resolve_next_iff.2 ⟨rfl, hreg⟩
  have hhost : s.host = .write off 4 v :: rest := h.2.2
  rw [step_of_hostNext h, ← completeAccess_takeTurn hhost]
  simp only [hostAccess, hres]
  cases r with
  | cmd => exact absurd rfl hro
  | status | tuneWord | rangeSel => rfl

/-! ### `BADCMD` (10_state.md R20) -/

/-- Asserting reset takes effect at once, whatever the state (70_reset_and_hazards.md R108). -/
theorem step_of_assertReset {s : State} (turn : s.nextTurn = .assertReset) :
    step s = .next (assertReset (takeTurn s)) := by
  simp only [step, turn, runTurn]

/-- A bad word written to `CMD` of an idle block is accepted and sets the flag (60_exceptions.md R96). -/
theorem step_of_badWord {s : State} {w : Word} {e : BadWord} {rest : List HostAccess}
    (h : s.hostNext (memWrite Config.base w) rest) (idle : s.pending = []) (word : decode w = .error e) :
    step s = .next (raiseBadCommand (s.afterAccess rest)) := by
  rw [memWrite_base] at h
  rw [step_of_commandWrite h idle]
  simp only [acceptWord, word]

@[simp] theorem sequencerStep_badCmd (s : State) : (sequencerStep s).badCmd = s.badCmd := by
  rw [sequencerStep_frame]

/-- What a step can do to `BADCMD`: keep it, clear it by reset, or set it by accepting a bad word. -/
theorem step_badCmd {s t : State} (h : step s = .next t) :
    t.badCmd = s.badCmd ∨
    (s.nextTurn = .assertReset ∧ t.badCmd = false) ∨
    (t.badCmd = true ∧ ∃ w rest e,
      s.hostNext (memWrite Config.base w) rest ∧ s.pending = [] ∧ decode w = .error e) := by
  cases step_cases h with
  | asserted turn => exact .inr (.inl ⟨turn, rfl⟩)
  | bad off rest v e ready turn head at_ word =>
    obtain ⟨hnext, idle⟩ := hostNext_of_accepted ready turn head at_
    exact .inr (.inr ⟨rfl, v, rest, e, hnext, idle, word⟩)
  | sequencer | accepted => exact .inl (by simp)
  | released | held | waiting | read | ignored => exact .inl rfl

/-! ### The obligations -/

/-- Settles O44: the first and the last clause are what the step of a reset and of a bad word is; the other
two follow from what a step can do to the flag. -/
theorem badcmdIsStickyUntilReset : Obligations.BadcmdIsStickyUntilReset := by
  intro s t h
  refine ⟨fun turn => ?_, fun turn hs => ?_, fun hs ht => ?_, fun w rest e hnext idle word => ?_⟩
  · rw [← next_inj ((step_of_assertReset turn).symm.trans h), assertReset_badCmd]
  · rcases step_badCmd h with kept | ⟨reset, -⟩ | ⟨raised, -⟩
    · exact kept.trans hs
    · exact absurd reset turn
    · exact raised
  · rcases step_badCmd h with kept | ⟨-, cleared⟩ | ⟨-, accepted⟩
    · simp [kept, hs] at ht
    · simp [cleared] at ht
    · exact accepted
  · rw [← next_inj ((step_of_badWord hnext idle word).symm.trans h), raiseBadCommand_badCmd]

/-- Settles O30: `BUSY` is that the pending list is not empty; acceptance makes that list the command's actions,
and the sequencer step of a last action leaves it empty. -/
theorem busyFollowsThePendingList : Obligations.BusyFollowsThePendingList := by
  refine ⟨statusWord_busy_iff, fun s w i rest hnext idle word => ?_, fun s a hr turn last => ?_⟩
  · rw [memWrite_base] at hnext
    have hready : (s.afterAccess rest).ready = true := ready_iff.2 ⟨hnext.1, idle⟩
    have hpending : (commandEffect i (s.afterAccess rest)).pending = actionsOf i := commandEffect_pending i _ idle
    refine ⟨commandEffect i (s.afterAccess rest), ?_, ?_⟩
    · rw [step_of_commandWrite hnext idle, acceptWord_of_ok hready word]
    · rw [statusWord_busy_iff, hpending]
  · have hpending : (sequencerStep (takeTurn s)).pending = [] := sequencerStep_pending (a := a) last
    refine ⟨sequencerStep (takeTurn s), step_of_sequencer hr turn, ?_⟩
    rw [statusWord_bit_zero, busy_eq_false_iff, hpending]

/-- Settles O24: each offset names its register, and the step lemmas of a read and of an ignored write do the
rest. -/
theorem windowReadsReturnTheRegisters : Obligations.WindowReadsReturnTheRegisters := by
  refine ⟨fun s rest => ?_, ⟨statusWord_reset, rfl, rfl⟩, fun s v rest off hoff hnext => ?_⟩
  · rw [memRead_base]
    simp only [memRead_base_add]
    exact ⟨step_of_windowRead (r := .cmd) rfl, step_of_windowRead (r := .status) rfl,
      step_of_windowRead (r := .tuneWord) rfl, step_of_windowRead (r := .rangeSel) rfl⟩
  · rw [memWrite_base_add] at hnext
    rcases hoff with rfl | rfl | rfl
    · exact step_of_readOnlyWrite (r := .status) rfl (by decide) hnext
    · exact step_of_readOnlyWrite (r := .tuneWord) rfl (by decide) hnext
    · exact step_of_readOnlyWrite (r := .rangeSel) rfl (by decide) hnext

/-- Settles O23: the value returned is `statusWord s`, read off bit by bit. -/
theorem statusReadsItsFields : Obligations.StatusReadsItsFields := by
  refine ⟨fun s rest hnext => ?_, statusWord_reset, fun s v rest hnext => ?_⟩
  · rw [memRead_base_add] at hnext
    exact ⟨statusWord s, step_of_windowRead (r := .status) rfl hnext, statusWord_busy_iff s,
      statusWord_fields s⟩
  · rw [memWrite_base_add] at hnext
    exact step_of_readOnlyWrite (r := .status) rfl (by decide) hnext

/-- Settles O45, field by field of `State.reset`; `BUSY` is 0 because nothing is pending. -/
theorem resetValues : Obligations.ResetValues := by
  have hbusy : (statusWord State.reset).getLsbD 0 = false := by
    rw [statusWord_bit_zero, busy_eq_false_iff, reset_pending]
  exact ⟨reset_sdaOut, reset_sclOut, reset_pending, hbusy, reset_badCmd, reset_tuneWord, reset_rangeSel,
    reset_trace⟩

end Sys2Proof.Machine
end

section
/-! PROOFS of the family 20_memory.md: the order of bits, bytes and halves. -/

namespace Sys2Proof.Machine

/-! ### A command on a block that can accept it (10_state.md R17) -/

/-- A block out of reset with nothing pending takes a command's whole effect. -/
theorem exec_of_idle {s : State} (released : s.resetLine = false) (idle : s.pending = []) (i : Instr) :
    exec i s = .next (commandEffect i s) := by
  rw [exec_eq_whenReady, whenReady_of_ready (ready_iff.2 ⟨released, idle⟩)]

/-! ### The synthesizer function (41_frequency_synth.md R83, R84) -/

/-- The table entry of a band operand: entry 7 where no entry has its number. -/
theorem table_effectiveBand (table : BandTable) (band : Byte) :
    table (effectiveBand band) = if h : band.toNat < 8 then table ⟨band.toNat, h⟩ else table 7 :=
  apply_dite table (band.toNat < 8) _ _

theorem baseOf_eq (mode : Mode) (e : BandEntry) :
    baseOf mode e = if mode = .transmit then e.txBase else e.rxBase := by
  cases mode <;> rfl

/-- The tuning word as R83 writes it, over the entry of the effective band. -/
theorem tuningIn_word (table : BandTable) (mode : Mode) (band channel : Byte) :
    (tuningIn table mode band channel).word =
      (if mode = .transmit then (table (effectiveBand band)).txBase else (table (effectiveBand band)).rxBase) +
        (table (effectiveBand band)).step * BitVec.ofNat 32 (channel.toNat / 2) := by
  rw [← baseOf_eq, ← halfChannel_eq, tuningIn]

/-! ### The halves of the tuning word (20_memory.md R40) -/

/-- Register 1 takes the low half of the tuning word, register 0 its high half. -/
theorem freqSeq_eq (dev : Byte) (tw : Word) (rs : Half) :
    freqSeq dev tw rs = txnSeq dev 2#8 rs ++ txnSeq dev 1#8 (tw.setWidth 16) ++
      txnSeq dev 0#8 ((tw >>> 16).setWidth 16) := by
  rw [freqSeq, lowHalf_eq, highHalf_eq]

/-! ### Bits and bytes on the line (20_memory.md R38, 40_serial_bus.md R66 to R69) -/

/-- Bit cells that begin with the clock low show their bits in order and nothing else. -/
theorem lineEvents_bitCells (l : Levels) (low : l.scl = false) (vs : List Bool) :
    lineEvents l (vs.flatMap bitSeq) = vs.map .bit := by
  induction vs generalizing l with
  | nil => rfl
  | cons v vs ih =>
    obtain ⟨sda, scl⟩ := l
    cases low
    rw [List.flatMap_cons, lineEvents_append, lineEvents_bitSeq, levelsAfter_bitSeq, ih _ rfl]
    rfl

/-- Bit cells keep the clock low. -/
theorem levelsAfter_bitCells_scl (l : Levels) (low : l.scl = false) (vs : List Bool) :
    (levelsAfter l (vs.flatMap bitSeq)).scl = false := by
  induction vs generalizing l with
  | nil => exact low
  | cons v vs ih => rw [List.flatMap_cons, levelsAfter_append, levelsAfter_bitSeq, ih _ rfl]

/-- An acknowledge phase that begins with the clock low is one rising clock edge with data released. -/
theorem lineEvents_ackSeq (l : Levels) (low : l.scl = false) : lineEvents l ackSeq = [.bit true] := by
  obtain ⟨sda, scl⟩ := l
  cases low
  cases sda <;> rfl

/-- `byteEvents` counts the bits down; these are the bits that `byteSeq` sends. -/
theorem byteEvents_eq (b : Byte) : byteEvents b = (bitsMsbFirst b).map .bit ++ [.bit true] := rfl

/-- A byte that begins with the clock low shows its bits, bit 7 first, and its acknowledge clock. -/
theorem lineEvents_byteSeq (l : Levels) (low : l.scl = false) (b : Byte) :
    lineEvents l (byteSeq b) = byteEvents b := by
  have cells := levelsAfter_bitCells_scl l low (bitsMsbFirst b)
  rw [byteSeq, lineEvents_append, lineEvents_bitCells l low, lineEvents_ackSeq _ cells, byteEvents_eq]

theorem levelsAfter_startSeq (l : Levels) : levelsAfter l startSeq = .bothLow := rfl

/-- A start sequence brings both outputs to 1, each with the condition that its edge makes, and then makes the
start condition. -/
theorem lineEvents_startSeq (l : Levels) :
    lineEvents l startSeq =
      (PinAction.setSda true).lineEvent l ++ (PinAction.setScl true).lineEvent { l with sda := true } ++
        [.start] := by
  simp [startSeq, PinAction.lineEvent, PinAction.levelsAfter]

/-! ### The obligations -/

/-- Settles O15: the command's effect on a ready block, with the latched tuning and the queued transactions
written out. -/
theorem wrfreqLatchesAndQueuesThreeTransactions : Obligations.WrfreqLatchesAndQueuesThreeTransactions := by
  intro mode band channel s released idle
  refine ⟨_, _, table_effectiveBand Config.bandTable band, tuningIn_word Config.bandTable mode band channel, ?_⟩
  rw [exec_of_idle released idle, ← freqSeq_eq]
  rfl

/-- Settles O39: the start sequence ends in a start condition and with the clock low, and so does each byte end
with the clock low; there a byte shows its bits and nothing else. -/
theorem bytesGoOutMostSignificantBitFirst : Obligations.BytesGoOutMostSignificantBitFirst := by
  intro l b b'
  constructor
  · have first : lineEvents .bothLow (byteSeq b) = byteEvents b := lineEvents_byteSeq _ rfl b
    have second : lineEvents .bothLow (byteSeq b') = byteEvents b' := lineEvents_byteSeq _ rfl b'
    rw [lineEvents_append, lineEvents_append, levelsAfter_append, levelsAfter_startSeq, levelsAfter_byteSeq,
      first, second, byteEvents_eq, byteEvents_eq]
    rfl
  · rw [lineEvents_startSeq, List.getLast?_concat]

end Sys2Proof.Machine
end

section
/-! PROOFS of the family 30_encoding.md: the opcode map as the decoder's fields, and the bad words. -/

namespace Sys2Proof

/-! ### Fields and masks (30_encoding.md R55, R58) -/

theorem getLsbD_field (w : Word) (lo width i : Nat) :
    (field w lo width).getLsbD i = (decide (i < width) && w.getLsbD (lo + i)) :=
  BitVec.getLsbD_extractLsb' lo width w i

theorem field_eq_setWidth (w : Word) (lo width : Nat) : field w lo width = (w >>> lo).setWidth width :=
  BitVec.setWidth_ushiftRight_eq_extractLsb.symm

theorem field_zero_eq_setWidth (w : Word) (width : Nat) : field w 0 width = w.setWidth width := by
  rw [field_eq_setWidth, BitVec.ushiftRight_zero]

/-- The mask of the field of `width` bits from bit `lo` up. -/
def fieldMask (lo width : Nat) : Word := (BitVec.allOnes width).setWidth 32 <<< lo

theorem getLsbD_fieldMask (lo width i : Nat) :
    (fieldMask lo width).getLsbD i = true ↔ i < 32 ∧ lo ≤ i ∧ i < lo + width := by
  simp only [fieldMask, BitVec.getLsbD_shiftLeft, BitVec.getLsbD_setWidth, BitVec.getLsbD_allOnes,
    Bool.and_eq_true, Bool.not_eq_true', decide_eq_true_eq, decide_eq_false_iff_not]
  omega

/-- Two words are equal under a mask exactly when they agree in each bit of the mask. -/
theorem and_eq_and_iff {w p m : Word} :
    w &&& m = p &&& m ↔ ∀ i, m.getLsbD i = true → w.getLsbD i = p.getLsbD i := by
  constructor
  · intro h i hm
    have bit : (w &&& m).getLsbD i = (p &&& m).getLsbD i := by rw [h]
    rwa [BitVec.getLsbD_and, BitVec.getLsbD_and, hm, Bool.and_true, Bool.and_true] at bit
  · intro h
    refine BitVec.eq_of_getLsbD_eq fun i _ => ?_
    rw [BitVec.getLsbD_and, BitVec.getLsbD_and]
    cases hm : m.getLsbD i with
    | false => rw [Bool.and_false, Bool.and_false]
    | true => rw [h i hm]

/-- Two words are equal in a field exactly when they are equal under its mask. -/
theorem field_eq_field_iff {w p : Word} {lo width : Nat} :
    field w lo width = field p lo width ↔ w &&& fieldMask lo width = p &&& fieldMask lo width := by
  simp only [and_eq_and_iff, getLsbD_fieldMask]
  constructor
  · rintro h i ⟨-, above, below⟩
    have inside : i - lo < width := by omega
    have bit : (field w lo width).getLsbD (i - lo) = (field p lo width).getLsbD (i - lo) := by rw [h]
    simpa only [getLsbD_field, inside, decide_true, Bool.true_and, Nat.add_sub_cancel' above] using bit
  · intro h
    refine BitVec.eq_of_getLsbD_eq fun i hi => ?_
    rw [getLsbD_field, getLsbD_field]
    by_cases hw : lo + i < 32
    · rw [h (lo + i) ⟨hw, by omega, by omega⟩]
    · rw [BitVec.getLsbD_of_ge w _ (by omega), BitVec.getLsbD_of_ge p _ (by omega)]

/-- The mask of several fields, each given by its lowest bit and its width. -/
def fieldsMask : List (Nat × Nat) → Word
  | [] => 0#32
  | f :: fs => fieldMask f.1 f.2 ||| fieldsMask fs

theorem and_fieldsMask_eq_iff {w p : Word} (fs : List (Nat × Nat)) :
    w &&& fieldsMask fs = p &&& fieldsMask fs ↔ ∀ f ∈ fs, field w f.1 f.2 = field p f.1 f.2 := by
  induction fs with
  | nil => simp [fieldsMask]
  | cons f fs ih =>
    rw [List.forall_mem_cons, ← ih, field_eq_field_iff]
    simp only [and_eq_and_iff, fieldsMask, BitVec.getLsbD_or, Bool.or_eq_true, or_imp, forall_and]

/-! ### The rows of the opcode map (30_encoding.md R58) -/

/-- Below the opcode, a row's pattern is 0. -/
theorem field_pattern (op : BitVec 4) {lo width : Nat} (low : lo + width ≤ 28) :
    field (op ++ 0#28) lo width = 0#width := by
  refine BitVec.eq_of_getLsbD_eq fun i hi => ?_
  have below : lo + i < 28 := by omega
  have bit : (op ++ 0#28).getLsbD (lo + i) = false := by rw [BitVec.getLsbD_append]; simp [below]
  rw [getLsbD_field, bit, Bool.and_false, BitVec.getLsbD_zero]

theorem opField_pattern : ∀ op : BitVec 4, opField (op ++ 0#28) = op := by decide

/-- A row's pattern lies under the mask of the opcode field, so under every mask that covers it. -/
theorem pattern_and_mask (op : BitVec 4) (m : Word) :
    (op ++ 0#28) &&& (fieldMask 28 4 ||| m) = op ++ 0#28 := by
  have under : ∀ op : BitVec 4, (op ++ 0#28) &&& fieldMask 28 4 = op ++ 0#28 := by decide
  refine BitVec.eq_of_getLsbD_eq fun i _ => ?_
  rw [← under op]
  simp only [BitVec.getLsbD_and, BitVec.getLsbD_or]
  cases (fieldMask 28 4).getLsbD i <;> simp

/-- A row's mask covers the opcode and the format's reserved-zero fields: a word matches the row exactly when
it has the row's opcode and its reserved-zero fields are 0. -/
theorem matches_row_iff {w : Word} (op : BitVec 4) (reserved : List (Nat × Nat))
    (low : ∀ f ∈ reserved, f.1 + f.2 ≤ 28) :
    w &&& fieldsMask ((28, 4) :: reserved) = op ++ 0#28 ↔
      opField w = op ∧ ∀ f ∈ reserved, field w f.1 f.2 = 0#f.2 := by
  have zero : (∀ f ∈ reserved, field w f.1 f.2 = field (op ++ 0#28) f.1 f.2) ↔
      ∀ f ∈ reserved, field w f.1 f.2 = 0#f.2 :=
    forall₂_congr fun f hf => by rw [field_pattern op (low f hf)]
  have opcode : field (op ++ 0#28) 28 4 = op := opField_pattern op
  have pattern : (op ++ 0#28) &&& fieldsMask ((28, 4) :: reserved) = op ++ 0#28 := pattern_and_mask op _
  rw [← zero, ← pattern, and_fieldsMask_eq_iff, List.forall_mem_cons, pattern, opcode]
  rfl

/-! The four formats of R55, each with its reserved-zero fields. -/

theorem matches_formatN_iff {w : Word} (op : BitVec 4) :
    w &&& 0xFFFFFFFF#32 = op ++ 0#28 ↔ opField w = op ∧ field w 0 28 = 0#28 := by
  have row := matches_row_iff (w := w) op [(0, 28)] (by decide)
  rwa [List.forall_mem_singleton] at row

theorem matches_formatB_iff {w : Word} (op : BitVec 4) :
    w &&& 0xFFFFFF00#32 = op ++ 0#28 ↔ opField w = op ∧ field w 8 20 = 0#20 := by
  have row := matches_row_iff (w := w) op [(8, 20)] (by decide)
  rwa [List.forall_mem_singleton] at row

theorem matches_formatR_iff {w : Word} (op : BitVec 4) :
    w &&& 0xFF000000#32 = op ++ 0#28 ↔ opField w = op ∧ field w 24 4 = 0#4 := by
  have row := matches_row_iff (w := w) op [(24, 4)] (by decide)
  rwa [List.forall_mem_singleton] at row

theorem matches_formatT_iff {w : Word} (op : BitVec 4) :
    w &&& 0xFEFF0000#32 = op ++ 0#28 ↔ opField w = op ∧ field w 25 3 = 0#3 ∧ field w 16 8 = 0#8 := by
  have row := matches_row_iff (w := w) op [(25, 3), (16, 8)] (by decide)
  rwa [List.forall_mem_cons, List.forall_mem_singleton] at row

/-- Two rows that differ where both masks look are matched by no word together. -/
theorem not_matches_both {m p m' p' : Word} (differ : p &&& m' ≠ p' &&& m) (w : Word) :
    ¬(w &&& m = p ∧ w &&& m' = p') := by
  rintro ⟨rfl, rfl⟩
  exact differ (by rw [BitVec.and_assoc, BitVec.and_assoc, BitVec.and_comm m])

/-! ### The decoder, command by command (30_encoding.md R59, R60) -/

theorem decode_start_iff {w : Word} :
    decode w = .ok .start ↔ opField w = 0x1#4 ∧ field w 0 28 = 0#28 := by
  simp [decode_ok_iff]

theorem decode_stop_iff {w : Word} :
    decode w = .ok .stop ↔ opField w = 0x2#4 ∧ field w 0 28 = 0#28 := by
  simp [decode_ok_iff]

theorem decode_txbyte_iff {w : Word} :
    decode w = .ok (.txbyte (w.setWidth 8)) ↔ opField w = 0x3#4 ∧ field w 8 20 = 0#20 := by
  simp [decode_ok_iff, field_zero_eq_setWidth]

theorem decode_wrreg_iff {w : Word} :
    decode w = .ok (.wrreg ((w >>> 16).setWidth 8) (w.setWidth 16)) ↔
      opField w = 0x4#4 ∧ field w 24 4 = 0#4 := by
  simp [decode_ok_iff, field_zero_eq_setWidth, field_eq_setWidth w 16]

theorem decode_tune_iff {w : Word} :
    decode w = .ok (.tune (modeField w) ((w >>> 8).setWidth 8) (w.setWidth 8)) ↔
      opField w = 0x5#4 ∧ field w 25 3 = 0#3 ∧ field w 16 8 = 0#8 := by
  simp [decode_ok_iff, field_zero_eq_setWidth, field_eq_setWidth w 8 8]

theorem decode_wrfreq_iff {w : Word} :
    decode w = .ok (.wrfreq (modeField w) ((w >>> 8).setWidth 8) (w.setWidth 8)) ↔
      opField w = 0x6#4 ∧ field w 25 3 = 0#3 ∧ field w 16 8 = 0#8 := by
  simp [decode_ok_iff, field_zero_eq_setWidth, field_eq_setWidth w 8 8]

/-- A word is bad exactly when it decodes to no command. -/
theorem decode_error_iff {w : Word} : (∃ e, decode w = .error e) ↔ ¬∃ i, decode w = .ok i := by
  cases decode w <;> simp

/-- A word is bad exactly when no command's opcode stands in it with that command's reserved-zero fields 0. -/
theorem decode_error_iff_fields {w : Word} :
    (∃ e, decode w = .error e) ↔
      ¬(opField w = 0x1#4 ∧ field w 0 28 = 0#28) ∧ ¬(opField w = 0x2#4 ∧ field w 0 28 = 0#28) ∧
      ¬(opField w = 0x3#4 ∧ field w 8 20 = 0#20) ∧ ¬(opField w = 0x4#4 ∧ field w 24 4 = 0#4) ∧
      ¬(opField w = 0x5#4 ∧ field w 25 3 = 0#3 ∧ field w 16 8 = 0#8) ∧
      ¬(opField w = 0x6#4 ∧ field w 25 3 = 0#3 ∧ field w 16 8 = 0#8) := by
  rw [decode_error_iff]
  simp only [decode_ok_iff, exists_or, exists_and_left, exists_eq, and_true, not_or]

/-! ### Fields as numbers -/

theorem opField_eq_iff {w : Word} {op : BitVec 4} : opField w = op ↔ w.toNat / 2 ^ 28 = op.toNat := by
  have small : w.toNat / 2 ^ 28 < 2 ^ 4 := Nat.div_lt_of_lt_mul w.isLt
  rw [← BitVec.toNat_inj, opField, field_toNat, Nat.mod_eq_of_lt small]

theorem field_eq_zero_iff {w : Word} {lo width : Nat} :
    field w lo width = 0#width ↔ w.toNat / 2 ^ lo % 2 ^ width = 0 := by
  rw [← BitVec.toNat_inj, field_toNat, BitVec.toNat_zero]

end Sys2Proof

namespace Sys2Proof.Machine

/-! ### The obligations -/

/-- Settles O4: a row's mask and pattern ask of a word what the decoder asks, the opcode and the reserved-zero
fields; and every two rows differ under both their masks. -/
theorem decodeFollowsTheOpcodeMap : Obligations.DecodeFollowsTheOpcodeMap := by
  refine ⟨fun w => ?_, ?_⟩
  · have start := matches_formatN_iff (w := w) 0x1#4
    have stop := matches_formatN_iff (w := w) 0x2#4
    have txbyte := matches_formatB_iff (w := w) 0x3#4
    have wrreg := matches_formatR_iff (w := w) 0x4#4
    have tune := matches_formatT_iff (w := w) 0x5#4
    have wrfreq := matches_formatT_iff (w := w) 0x6#4
    have noRow := and_congr start.not <| and_congr stop.not <| and_congr txbyte.not <|
      and_congr wrreg.not <| and_congr tune.not wrfreq.not
    exact ⟨start.trans decode_start_iff.symm, stop.trans decode_stop_iff.symm,
      txbyte.trans decode_txbyte_iff.symm, wrreg.trans decode_wrreg_iff.symm,
      tune.trans decode_tune_iff.symm, wrfreq.trans decode_wrfreq_iff.symm,
      decode_error_iff_fields.trans noRow.symm⟩
  · refine List.Pairwise.imp (R := fun r r' : Word × Word => r.2 &&& r'.1 ≠ r'.2 &&& r.1) not_matches_both ?_
    decide

/-- Settles O5: the decoder's condition read as arithmetic on the word's number, and the step that accepts a
bad word. -/
theorem badWordsOnlySetTheFlag : Obligations.BadWordsOnlySetTheFlag := by
  refine ⟨fun w => ?_, fun s w rest hnext idle bad => ?_, _, rfl⟩
  · rw [decode_error_iff_fields]
    simp only [opField_eq_iff, field_eq_zero_iff, pow_zero, Nat.div_one, BitVec.toNat_ofNat]
    generalize w.toNat / 2 ^ 28 = op
    match op with
    | 0 | 1 | 2 | 3 | 4 | 5 | 6 => simp [imp_iff_not_or]
    | n + 7 => simp
  · obtain ⟨e, word⟩ := bad
    exact step_of_badWord hnext idle word

end Sys2Proof.Machine
end

section
/-! PROOFS of the family 40_serial_bus.md: what the SerialBus commands queue. -/

namespace Sys2Proof.Machine

/-! ### The sequences (40_serial_bus.md R69 to R71) -/

/-- A stop sequence shows what its clock edge shows, and then the stop condition if data is low. -/
theorem lineEvents_stopSeq (l : Levels) :
    lineEvents l stopSeq = (PinAction.setScl true).lineEvent l ++
      if l.sda = false then [.stop] else [] := by
  simp [stopSeq, PinAction.lineEvent, PinAction.levelsAfter]

/-- A clock action makes no stop condition: only a data edge does. -/
theorem stop_not_mem_lineEvent_setScl (l : Levels) (v : Bool) :
    LineEvent.stop ∉ (PinAction.setScl v).lineEvent l := by
  rw [PinAction.lineEvent]
  split <;> simp

/-- A stop sequence shows a stop condition exactly when data is low at its beginning (R70, R73). -/
theorem stop_mem_lineEvents_stopSeq (l : Levels) : LineEvent.stop ∈ lineEvents l stopSeq ↔ l.sda = false := by
  rw [lineEvents_stopSeq, List.mem_append, or_iff_right (stop_not_mem_lineEvent_setScl l true)]
  simp

/-- The bits of a byte in the order they are sent are its bits 7 down to 0. -/
theorem bitsMsbFirst_eq_map (b : Byte) : bitsMsbFirst b = [7, 6, 5, 4, 3, 2, 1, 0].map b.getLsbD := rfl

/-- A byte's sequence as one bit cell for each bit number, 7 down to 0, and the acknowledge phase. -/
theorem byteSeq_eq (b : Byte) :
    byteSeq b = ([7, 6, 5, 4, 3, 2, 1, 0].flatMap fun k => bitSeq (b.getLsbD k)) ++ ackSeq := by
  rw [byteSeq, bitsMsbFirst_eq_map, List.flatMap_map]

/-- A transaction byte by byte: the address, the index, the value's high byte, its low byte (R71). -/
theorem txnSeq_eq (dev idx : Byte) (v : Half) :
    txnSeq dev idx v = startSeq ++ byteSeq dev ++ byteSeq idx ++ byteSeq ((v >>> 8).setWidth 8) ++
      byteSeq (v.setWidth 8) ++ stopSeq := by
  rw [← highByte_eq, ← lowByte_eq]
  simp [txnSeq, txnBytes]

/-! ### The obligations -/

/-- Settles O12: the transaction that WRREG queues, byte by byte. -/
theorem wrregQueuesOneTransaction : Obligations.WrregQueuesOneTransaction := by
  intro idx value s released idle
  rw [exec_of_idle released idle, ← txnSeq_eq]
  rfl

/-- Settles O9: START's effect on a ready block is the start sequence, queued. -/
theorem startQueuesTheStartSequence : Obligations.StartQueuesTheStartSequence :=
  fun _ released idle => exec_of_idle released idle .start

/-- Settles O10: STOP's effect on a ready block is the stop sequence, queued; its clock action makes no stop
condition, so only the release of data can. -/
theorem stopQueuesTheStopSequence : Obligations.StopQueuesTheStopSequence :=
  ⟨fun _ released idle => exec_of_idle released idle .stop, stop_mem_lineEvents_stopSeq⟩

/-- Settles O11: TXBYTE's effect on a ready block is the byte's sequence, queued, one bit cell for each bit
number. -/
theorem txbyteQueuesTheByteSequence : Obligations.TxbyteQueuesTheByteSequence := by
  intro byte s released idle
  rw [exec_of_idle released idle, commandEffect, byteSeq_eq]
  rfl

end Sys2Proof.Machine
end

section
/-! PROOFS of the family 41_frequency_synth.md: the synthesizer function, and reading its results. -/

namespace Sys2Proof.Machine

/-! ### The synthesizer function (41_frequency_synth.md R84 to R87) -/

theorem effectiveBand_of_lt {band : Byte} (inTable : band.toNat < 8) :
    effectiveBand band = ⟨band.toNat, inTable⟩ :=
  dif_pos inTable

theorem effectiveBand_of_ge {band : Byte} (outOfRange : 8 ≤ band.toNat) : effectiveBand band = defaultBand :=
  dif_neg (Nat.not_lt.2 outOfRange)

theorem halfChannel_toNat (channel : Byte) : (halfChannel channel).toNat = channel.toNat / 2 := by
  have := channel.isLt
  rw [halfChannel_eq, BitVec.toNat_ofNat, Nat.mod_eq_of_lt (by omega)]

/-- The band operand counts only by its effective band. -/
theorem tuningIn_congr {band band' : Byte} (same : effectiveBand band = effectiveBand band') (table : BandTable)
    (mode : Mode) (channel : Byte) : tuningIn table mode band channel = tuningIn table mode band' channel := by
  simp only [tuningIn, same]

theorem tuningIn_rangeSel (table : BandTable) (mode : Mode) (band channel : Byte) :
    (tuningIn table mode band channel).rangeSel = (table (effectiveBand band)).rangeSel := rfl

/-- The 32-bit product and sum, as numbers (R86). -/
theorem tuningIn_word_toNat (table : BandTable) (mode : Mode) (band channel : Byte) :
    (tuningIn table mode band channel).word.toNat =
      ((baseOf mode (table (effectiveBand band))).toNat +
        (table (effectiveBand band)).step.toNat * (channel.toNat / 2)) % 2 ^ 32 := by
  rw [tuningIn, BitVec.toNat_add, BitVec.toNat_mul, halfChannel_toNat, Nat.add_mod_mod]

/-- Channels 0 and 1 are the base itself. -/
theorem tuningIn_word_of_channel_lt_two {channel : Byte} (low : channel.toNat < 2) (table : BandTable)
    (mode : Mode) (band : Byte) :
    (tuningIn table mode band channel).word = baseOf mode (table (effectiveBand band)) := by
  have half : halfChannel channel = 0#32 := by rw [halfChannel_eq, Nat.div_eq_of_lt low]
  rw [tuningIn, half, BitVec.mul_zero, BitVec.add_zero]

/-! ### What TUNE and WRFREQ do with the tuning (R91, R92) -/

/-- TUNE and WRFREQ use their operands only through the tuning that these give. -/
theorem exec_congr_tuning {mode mode' : Mode} {band band' channel channel' : Byte}
    (same : computeTuning mode band channel = computeTuning mode' band' channel') (s : State) :
    exec (.tune mode band channel) s = exec (.tune mode' band' channel') s ∧
      exec (.wrfreq mode band channel) s = exec (.wrfreq mode' band' channel') s := by
  simp only [exec_eq_whenReady, whenReady, commandEffect, same, and_self]

/-- No command touches `BADCMD` (10_state.md R20), accepted or not. -/
theorem exec_badCmd {i : Instr} {s t : State} (h : exec i s = .next t) : t.badCmd = s.badCmd := by
  rw [exec_eq_whenReady] at h
  rcases whenReady_next h with ⟨-, rfl⟩ | ⟨-, rfl⟩
  · exact commandEffect_badCmd i s
  · rfl

theorem statusWord_latchTuning (t : Tuning) (s : State) : statusWord (latchTuning t s) = statusWord s := rfl

theorem freqSeq_ne_nil (dev : Byte) (tw : Word) (rs : Half) : freqSeq dev tw rs ≠ [] :=
  List.ne_nil_of_length_pos (by simp [length_freqSeq])

/-! ### TUNE and WRFREQ words are read back (30_encoding.md R55, R56, R59) -/

/-- The decoder's parts on a word of format T. -/
theorem fields_of_formatT {w : Word} {op : BitVec 4} {mode : Mode} {band channel : Byte}
    (h : w.toNat = op.toNat * 2 ^ 28 + (bitOfMode mode).toNat * 2 ^ 24 + band.toNat * 2 ^ 8 + channel.toNat) :
    opField w = op ∧ (field w 25 3 = 0#3 ∧ field w 16 8 = 0#8) ∧
      modeField w = mode ∧ field w 8 8 = band ∧ field w 0 8 = channel := by
  have bandLt := band.isLt
  have channelLt := channel.isLt
  have bitLt := (bitOfMode mode).toNat_lt
  refine ⟨opField_eq_iff.2 (by omega), ⟨field_eq_zero_iff.2 (by omega), field_eq_zero_iff.2 (by omega)⟩,
    ?_, ?_, ?_⟩
  · have bit : w.toNat / 2 ^ 24 % 2 = (bitOfMode mode).toNat := by omega
    rw [modeField_eq, bit]
    cases mode <;> rfl
  · rw [← BitVec.toNat_inj, field_toNat]
    omega
  · rw [← BitVec.toNat_inj, field_toNat]
    omega

theorem decode_encode_tune (mode : Mode) (band channel : Byte) :
    decode (encode (.tune mode band channel)) = .ok (.tune mode band channel) := by
  obtain ⟨hop, hzeros, hmode, hband, hchannel⟩ :=
    fields_of_formatT (w := encode (.tune mode band channel)) (formatT_toNat 0x5#4 (bitOfMode mode) band channel)
  simp [decode_ok_iff, hop, hzeros, hmode, hband, hchannel]

theorem decode_encode_wrfreq (mode : Mode) (band channel : Byte) :
    decode (encode (.wrfreq mode band channel)) = .ok (.wrfreq mode band channel) := by
  obtain ⟨hop, hzeros, hmode, hband, hchannel⟩ :=
    fields_of_formatT (w := encode (.wrfreq mode band channel)) (formatT_toNat 0x6#4 (bitOfMode mode) band channel)
  simp [decode_ok_iff, hop, hzeros, hmode, hband, hchannel]

/-! ### A command and the reads after it (10_state.md R17, 20_memory.md R42) -/

/-- The offset of a window register from `BASE` (10_state.md R16), as `regAt` reads it. -/
def WindowReg.offset : WindowReg → Nat
  | .cmd => 0x0
  | .status => 0x4
  | .tuneWord => 0x8
  | .rangeSel => 0xC

theorem regAt_offset (r : WindowReg) : regAt r.offset = some r := by cases r <;> rfl

/-- The host's read of a window register. -/
def regRead (r : WindowReg) : HostAccess := memRead (Config.base + r.offset)

theorem sameBlock.trans {s t u : State} (first : sameBlock s t) (second : sameBlock t u) : sameBlock s u := by
  rw [sameBlock] at first second ⊢
  rw [second, first]

/-- A window register shows the block's part of the state only. -/
theorem sameBlock.readReg_eq {s t : State} (same : sameBlock s t) (r : WindowReg) :
    readReg r t = readReg r s := by
  rw [same]
  cases r <;> rfl

theorem sameBlock.trace_eq {s t : State} (same : sameBlock s t) : t.trace = s.trace := by
  rw [same]

theorem sameBlock.resetLine_eq {s t : State} (same : sameBlock s t) : t.resetLine = s.resetLine := by
  rw [same]

/-- A command does the same to the block whatever the host is about to do next. -/
theorem sameBlock_commandEffect_afterAccess (i : Instr) (s : State) (rest : List HostAccess) :
    sameBlock (commandEffect i s) (commandEffect i (s.afterAccess rest)) := by
  cases i <;> rfl

/-- A read of a window register, the host's and the block's part apart. -/
theorem step_of_regRead {s : State} {r : WindowReg} {rest : List HostAccess} (h : s.hostNext (regRead r) rest) :
    ∃ u, step s = .next u ∧ sameBlock s u ∧ u.host = rest ∧ u.turns = s.turns.tail ∧
      u.reads = s.reads ++ [readReg r s] := by
  rw [regRead, memRead_base_add] at h
  exact ⟨_, step_of_windowRead (regAt_offset r) h, rfl, rfl, rfl, rfl⟩

/-- A command accepted on an idle block, the host's and the block's part apart. -/
theorem step_of_command {s : State} {i : Instr} {rest : List HostAccess} (word : decode (encode i) = .ok i)
    (h : s.hostNext (memWrite Config.base (encode i)) rest) (idle : s.pending = []) :
    ∃ u, step s = .next u ∧ sameBlock (commandEffect i s) u ∧ u.host = rest ∧ u.turns = s.turns.tail ∧
      u.reads = s.reads := by
  rw [memWrite_base] at h
  have ready : (s.afterAccess rest).ready = true := ready_iff.2 ⟨h.1, idle⟩
  refine ⟨commandEffect i (s.afterAccess rest), ?_, sameBlock_commandEffect_afterAccess i s rest,
    commandEffect_host i _, commandEffect_turns i _, commandEffect_reads i _⟩
  rw [step_of_commandWrite h idle, acceptWord_of_ok ready word]

/-- A host that reads window registers turn after turn gets their values, and nothing of the block changes. -/
theorem run_regReads (regs : List WindowReg) {s : State} (released : s.resetLine = false)
    (turns : s.turns = List.replicate regs.length .host) (host : s.host = regs.map regRead) :
    ∃ t, run regs.length s = .next t ∧ sameBlock s t ∧ t.reads = s.reads ++ regs.map (readReg · s) := by
  induction regs generalizing s with
  | nil => exact ⟨s, rfl, rfl, (List.append_nil _).symm⟩
  | cons r regs ih =>
    obtain ⟨u, hstep, same, hhost, hturns, hreads⟩ := step_of_regRead ⟨released, nextTurn_of_cons turns, host⟩
    rw [turns] at hturns
    obtain ⟨t, hrun, kept, values⟩ := ih (same.resetLine_eq.trans released) hturns hhost
    refine ⟨t, (run_succ_of_next hstep).trans hrun, same.trans kept, ?_⟩
    simp only [values, hreads, same.readReg_eq, List.map_cons, List.append_assoc, List.singleton_append]

/-- The reads after a command accepted on an idle block see the command's effect, and change nothing of it. -/
theorem run_command_regReads {i : Instr} (regs : List WindowReg) {s : State}
    (word : decode (encode i) = .ok i) (released : s.resetLine = false) (idle : s.pending = [])
    (turns : s.turns = List.replicate (regs.length + 1) .host)
    (host : s.host = memWrite Config.base (encode i) :: regs.map regRead) :
    ∃ t, run (regs.length + 1) s = .next t ∧ sameBlock (commandEffect i s) t ∧
      t.reads = s.reads ++ regs.map (readReg · (commandEffect i s)) := by
  obtain ⟨u, hstep, same, hhost, hturns, hreads⟩ :=
    step_of_command word ⟨released, nextTurn_of_cons turns, host⟩ idle
  rw [turns] at hturns
  have running : u.resetLine = false := (same.resetLine_eq.trans (commandEffect_resetLine i s)).trans released
  obtain ⟨t, hrun, kept, values⟩ := run_regReads regs running hturns hhost
  refine ⟨t, (run_succ_of_next hstep).trans hrun, same.trans kept, ?_⟩
  simp only [values, hreads, same.readReg_eq]

/-! ### The obligations -/

/-- Settles O14: the command's effect on a ready block, with the latched tuning written out. -/
theorem tuneLatchesTheTuning : Obligations.TuneLatchesTheTuning := by
  intro mode band channel s released idle
  refine ⟨_, table_effectiveBand Config.bandTable band, ?_⟩
  rw [exec_of_idle released idle, ← tuningIn_word]
  rfl

/-- Settles O18: `half` as a number, on the numbers `2k` and `2k + 1`. -/
theorem channelsCountByHalves : Obligations.ChannelsCountByHalves := by
  refine ⟨halfChannel_toNat, fun k hk => ⟨?_, ?_⟩⟩
  · have even : (BitVec.ofNat 8 (2 * k)).toNat / 2 = k := by rw [BitVec.toNat_ofNat]; omega
    rw [halfChannel_eq, even]
  · have odd : (BitVec.ofNat 8 (2 * k + 1)).toNat / 2 = k := by rw [BitVec.toNat_ofNat]; omega
    rw [halfChannel_eq, odd]

/-- Settles O20: the range selector is read from the effective band's entry, which no other operand selects. -/
theorem rangeSelectorDependsOnTheBandOnly : Obligations.RangeSelectorDependsOnTheBandOnly := by
  intro table mode mode' band channel channel'
  have selected := tuningIn_rangeSel table mode band channel
  exact ⟨selected, selected.trans (tuningIn_rangeSel table mode' band channel').symm⟩

/-- Settles O16: the 32-bit sum as a number; below channel 100 `half` is at most 49, so that number is below
2^32 where no entry overflows at 49 steps; and `STATUS` has no field that TUNE writes. -/
theorem tuningWordIsTheSumModulo32Bits : Obligations.TuningWordIsTheSumModulo32Bits := by
  intro table mode band channel
  have exactSum := tuningIn_word_toNat table mode band channel
  refine ⟨_, rfl, exactSum, fun fits below => ?_, fun s released idle => ⟨_, exec_of_idle released idle _, ?_⟩⟩
  · have half : channel.toNat / 2 ≤ 49 := by omega
    have steps := Nat.mul_le_mul_left (table (effectiveBand band)).step.toNat half
    have bound := fits (effectiveBand band) mode
    rw [exactSum, Nat.mod_eq_of_lt (by omega)]
  · exact statusWord_latchTuning _ s

/-- Settles O17: from 8 up the effective band is band 7's, and the operands act through the tuning alone; below
8 it is the operand's own entry. -/
theorem bandsOutOfRangeFallBackToTheLast : Obligations.BandsOutOfRangeFallBackToTheLast := by
  intro table mode band channel
  refine ⟨fun outOfRange => ?_, fun inTable => ?_⟩
  · have last : effectiveBand band = effectiveBand 7#8 := effectiveBand_of_ge outOfRange
    refine ⟨tuningIn_congr last table mode channel, fun s => ?_⟩
    obtain ⟨tune, wrfreq⟩ := exec_congr_tuning (tuningIn_congr last Config.bandTable mode channel) s
    exact ⟨tune, wrfreq, fun t answer => answer.elim exec_badCmd exec_badCmd⟩
  · rw [← effectiveBand_of_lt inTable]
    exact ⟨tuningIn_rangeSel table mode band channel,
      fun low => tuningIn_word_of_channel_lt_two low table mode band⟩

/-- Settles O21: the three reads see the command's effect, whose results are the tuning; WRFREQ leaves its
actions pending and TUNE leaves nothing. -/
theorem resultsAreReadableAtOnce : Obligations.ResultsAreReadableAtOnce := by
  intro s mode band channel released idle turns
  constructor
  · intro host
    obtain ⟨t, hrun, same, values⟩ := run_command_regReads [.tuneWord, .rangeSel, .status]
      (decode_encode_wrfreq mode band channel) released idle turns host
    have busy : (statusWord (commandEffect (.wrfreq mode band channel) s)).getLsbD 0 = true :=
      (statusWord_busy_iff _).2 (freqSeq_ne_nil _ _ _)
    exact ⟨t, _, hrun, busy, same.trace_eq.trans (commandEffect_trace _ s), values⟩
  · intro host
    obtain ⟨t, hrun, same, values⟩ := run_command_regReads [.tuneWord, .rangeSel, .status]
      (decode_encode_tune mode band channel) released idle turns host
    have notBusy : (statusWord (commandEffect (.tune mode band channel) s)).getLsbD 0 = false :=
      (statusWord_bit_zero _).trans (busy_eq_false_iff.2 idle)
    exact ⟨t, _, hrun, notBusy, same.trace_eq.trans (commandEffect_trace _ s), values⟩

end Sys2Proof.Machine
end

section
/-! PROOFS of the family 60_exceptions.md: the host accesses that are refused. -/

namespace Sys2Proof.Machine

/-! ### What `resolve` refuses (60_exceptions.md R98) -/

/-- The width is looked at first: another width is refused at every offset. -/
theorem resolve_of_width_ne {width : Nat} (other : width ≠ 4) (off : Int) :
    resolve off width = .refused (.accessWidth width) := by
  rw [resolve, if_pos other]

/-- A misaligned 32-bit access is refused, inside the window and outside it. -/
theorem resolve_of_misaligned {off : Int} (misaligned : off % 4 ≠ 0) :
    resolve off 4 = .refused (.misalignedAddress off) := by
  rw [resolve, if_neg (not_not.2 rfl), if_pos misaligned]

/-- An offset is aligned exactly when its address is, below the window (a negative offset) too. -/
theorem offset_emod_four_eq_zero_iff (addr : Nat) : ((addr : Int) - Config.base) % 4 = 0 ↔ addr % 4 = 0 := by
  have aligned := base_mod_four
  omega

/-- What `resolve` refuses ends the run, whether the access is a read or a write. -/
theorem step_of_resolve_refused {s : State} {off : Int} {width : Nat} {v : Word} {rest : List HostAccess}
    {r : Refusal} (h : s.hostNext (.read off width) rest ∨ s.hostNext (.write off width v) rest)
    (refused : resolve off width = .refused r) : step s = .refused r := by
  obtain read | write := h
  · rw [step_of_hostNext read]
    simp only [hostAccess, refused]
  · rw [step_of_hostNext write]
    simp only [hostAccess, refused]

/-! ### The obligation -/

/-- Settles O25: the width decides which refusal it is; with width 4 it is the address that is wrong. -/
theorem undefinedAccessesAreRefused : Obligations.UndefinedAccessesAreRefused := by
  intro s addr width v rest next wrong
  by_cases word : width = 4
  · subst word
    have misaligned : addr % 4 ≠ 0 := wrong.resolve_left (not_not.2 rfl)
    have refused := resolve_of_misaligned (mt (offset_emod_four_eq_zero_iff addr).1 misaligned)
    exact ⟨_, step_of_resolve_refused next refused, fun aligned => absurd aligned misaligned, fun _ => rfl⟩
  · exact ⟨_, step_of_resolve_refused next (resolve_of_width_ne word _), fun _ => rfl,
      fun four => absurd four word⟩

end Sys2Proof.Machine
end

section
/-! PROOFS of the family 'other', 30_encoding.md: every command is read back from its word, and the assembler's
words. -/

namespace Sys2Proof.Machine

/-! ### Every command is read back from its word (30_encoding.md R55, R59) -/

theorem decode_encode_txbyte (byte : Byte) : decode (encode (.txbyte byte)) = .ok (.txbyte byte) := by
  have number := encode_txbyte_toNat byte
  have byteLt := byte.isLt
  have opcode : opField (encode (.txbyte byte)) = 0x3#4 := opField_eq_iff.2 (by simp; omega)
  have zeros : field (encode (.txbyte byte)) 8 20 = 0#20 := field_eq_zero_iff.2 (by omega)
  have operand : field (encode (.txbyte byte)) 0 8 = byte := BitVec.eq_of_toNat_eq (by rw [field_toNat]; omega)
  simp [decode_ok_iff, opcode, zeros, operand]

theorem decode_encode_wrreg (idx : Byte) (value : Half) :
    decode (encode (.wrreg idx value)) = .ok (.wrreg idx value) := by
  have number := encode_wrreg_toNat idx value
  have idxLt := idx.isLt
  have valueLt := value.isLt
  have opcode : opField (encode (.wrreg idx value)) = 0x4#4 := opField_eq_iff.2 (by simp; omega)
  have zeros : field (encode (.wrreg idx value)) 24 4 = 0#4 := field_eq_zero_iff.2 (by omega)
  have index : field (encode (.wrreg idx value)) 16 8 = idx := BitVec.eq_of_toNat_eq (by rw [field_toNat]; omega)
  have operand : field (encode (.wrreg idx value)) 0 16 = value :=
    BitVec.eq_of_toNat_eq (by rw [field_toNat]; omega)
  simp [decode_ok_iff, opcode, zeros, index, operand]

theorem decode_encode (i : Instr) : decode (encode i) = .ok i := by
  cases i with
  | start => rfl
  | stop => rfl
  | txbyte byte => exact decode_encode_txbyte byte
  | wrreg idx value => exact decode_encode_wrreg idx value
  | tune mode band channel => exact decode_encode_tune mode band channel
  | wrfreq mode band channel => exact decode_encode_wrfreq mode band channel

/-! ### A command word is that command's only word -/

/-- A word of format T is the sum of its opcode and operand fields when its reserved-zero fields are 0. -/
theorem toNat_of_formatT {w : Word} {op : BitVec 4} (opcode : opField w = op)
    (zeros : field w 25 3 = 0#3 ∧ field w 16 8 = 0#8) :
    op.toNat * 2 ^ 28 + (bitOfMode (modeField w)).toNat * 2 ^ 24 + (field w 8 8).toNat * 2 ^ 8 +
      (field w 0 8).toNat = w.toNat := by
  rw [opField_eq_iff] at opcode
  rw [field_eq_zero_iff, field_eq_zero_iff] at zeros
  rw [bitOfMode_modeField, field_toNat, field_toNat]
  omega

theorem encode_of_decode {w : Word} {i : Instr} (h : decode w = .ok i) : encode i = w := by
  apply BitVec.eq_of_toNat_eq
  rcases decode_ok_iff.1 h with ⟨opcode, zeros, rfl⟩ | ⟨opcode, zeros, rfl⟩ | ⟨opcode, zeros, rfl⟩ |
    ⟨opcode, zeros, rfl⟩ | ⟨opcode, zeros, rfl⟩ | ⟨opcode, zeros, rfl⟩
  case inr.inr.inr.inr.inl => exact (encode_tune_toNat _ _ _).trans (toNat_of_formatT opcode zeros)
  case inr.inr.inr.inr.inr => exact (encode_wrfreq_toNat _ _ _).trans (toNat_of_formatT opcode zeros)
  all_goals
    rw [opField_eq_iff] at opcode
    rw [field_eq_zero_iff] at zeros
    simp only [BitVec.toNat_ofNat] at opcode
  · rw [show (encode .start).toNat = 0x10000000 from rfl]; omega
  · rw [show (encode .stop).toNat = 0x20000000 from rfl]; omega
  · rw [encode_txbyte_toNat, field_toNat]; omega
  · rw [encode_wrreg_toNat, field_toNat, field_toNat]; omega

/-! ### The assembler's words (30_encoding.md R62, R64) -/

theorem fitsField_eight_iff {v : Nat} : fitsField 8 v = true ↔ v ≤ 255 := by
  rw [fitsField, decide_eq_true_iff]
  omega

theorem fitsField_sixteen_iff {v : Nat} : fitsField 16 v = true ↔ v ≤ 65535 := by
  rw [fitsField, decide_eq_true_iff]
  omega

theorem fitsField_bytes_iff {band channel : Nat} :
    (fitsField 8 band && fitsField 8 channel) = true ↔ band ≤ 255 ∧ channel ≤ 255 := by
  rw [Bool.and_eq_true, fitsField_eight_iff, fitsField_eight_iff]

theorem fitsField_byte_half_iff {idx value : Nat} :
    (fitsField 8 idx && fitsField 16 value) = true ↔ idx ≤ 255 ∧ value ≤ 65535 := by
  rw [Bool.and_eq_true, fitsField_eight_iff, fitsField_sixteen_iff]

theorem word_eq_ofNat {w : Word} {n : Nat} (h : w.toNat = n) : w = BitVec.ofNat 32 n := by
  rw [← h, BitVec.ofNat_toNat, BitVec.setWidth_eq]

theorem toNat_ofNat_byte {v : Nat} (fits : v ≤ 255) : (BitVec.ofNat 8 v).toNat = v :=
  (BitVec.toNat_ofNat v 8).trans (Nat.mod_eq_of_lt (by omega))

theorem toNat_ofNat_half {v : Nat} (fits : v ≤ 65535) : (BitVec.ofNat 16 v).toNat = v :=
  (BitVec.toNat_ofNat v 16).trans (Nat.mod_eq_of_lt (by omega))

theorem encode_txbyte_eq (byte : Byte) : encode (.txbyte byte) = BitVec.ofNat 32 (0x30000000 + byte.toNat) :=
  word_eq_ofNat (encode_txbyte_toNat byte)

/-- A line is refused exactly when an operand is out of its range, and else has its commands' words. -/
theorem assemble_eq_ite {dev : Byte} {l : AsmLine} {ws : List Word} {inRange : Prop} [Decidable inRange]
    (ranges : l.wellFormed = true ↔ inRange) (words : inRange → (lineCommands dev l).map encode = ws) :
    assemble dev l = if inRange then some ws else none := by
  rw [assemble]
  by_cases h : inRange
  · rw [if_pos h, if_pos (ranges.2 h), words h]
  · rw [if_neg h, if_neg (mt ranges.1 h)]

theorem highByte_toNat (v : Half) : (highByte v).toNat = v.toNat / 2 ^ 8 := by
  have := v.isLt
  simp [highByte, Nat.shiftRight_eq_div_pow]
  omega

theorem lowByte_toNat (v : Half) : (lowByte v).toNat = v.toNat % 2 ^ 8 := by
  simp [lowByte]

/-! ### The obligations -/

/-- Settles O1: each literal reduces to the word of its command. -/
theorem writtenOutWordsDecode : Obligations.WrittenOutWordsDecode :=
  ⟨decode_encode .start, decode_encode .stop, decode_encode (.txbyte 0xA5#8),
    decode_encode (.wrreg 19#8 0x1234#16), decode_encode (.tune .transmit 2#8 10#8),
    decode_encode (.wrfreq .receive 9#8 7#8)⟩

/-- Settles O2, command by command in `decode_encode`; every `Instr` is well formed, so that hypothesis is not
needed. -/
theorem decodeOfEncodeIsTheCommand : Obligations.DecodeOfEncodeIsTheCommand :=
  fun i _ => decode_encode i

/-- Settles O3: opcode, reserved-zero fields and operands together are the whole word. -/
theorem encodeOfDecodedWordIsTheWord : Obligations.EncodeOfDecodedWordIsTheWord :=
  fun _ _ => encode_of_decode

/-- Settles O6: for each line its ranges, and its commands' words as numbers. -/
theorem assembledWordsAreTheTables : Obligations.AssembledWordsAreTheTables := by
  intro dev
  refine ⟨rfl, rfl, fun byte => ?_, fun idx value => ?_, fun mode band channel => ?_,
    fun mode band channel => ?_, fun idx value => ?_⟩
  · refine assemble_eq_ite fitsField_eight_iff fun fits => ?_
    simp only [lineCommands, List.map_cons, List.map_nil, encode_txbyte_eq, toNat_ofNat_byte fits]
  · refine assemble_eq_ite fitsField_byte_half_iff fun ⟨idxFits, valueFits⟩ => ?_
    simp only [lineCommands, List.map_cons, List.map_nil, word_eq_ofNat (encode_wrreg_toNat _ _),
      toNat_ofNat_byte idxFits, toNat_ofNat_half valueFits]
  · refine assemble_eq_ite fitsField_bytes_iff fun ⟨bandFits, channelFits⟩ => ?_
    simp only [lineCommands, List.map_cons, List.map_nil, word_eq_ofNat (encode_tune_toNat _ _ _),
      toNat_ofNat_byte bandFits, toNat_ofNat_byte channelFits]
  · refine assemble_eq_ite fitsField_bytes_iff fun ⟨bandFits, channelFits⟩ => ?_
    simp only [lineCommands, List.map_cons, List.map_nil, word_eq_ofNat (encode_wrfreq_toNat _ _ _),
      toNat_ofNat_byte bandFits, toNat_ofNat_byte channelFits]
  · refine assemble_eq_ite fitsField_byte_half_iff fun ⟨idxFits, valueFits⟩ => ?_
    simp only [lineCommands, xferCommands, List.map_cons, List.map_nil, encode_txbyte_eq, highByte_toNat,
      lowByte_toNat, toNat_ofNat_byte idxFits, toNat_ofNat_half valueFits]
    rfl

end Sys2Proof.Machine
end

section
/-! PROOFS of the family 'other', 40_serial_bus.md and 41_frequency_synth.md: the end levels, the line conditions and
the cost of every sequence, and the channels' half steps. -/

namespace Sys2Proof.Machine

/-! ### The levels at the end of a sequence (40_serial_bus.md R73) -/

theorem levelsAfter_ackSeq (l : Levels) : levelsAfter l ackSeq = .bothLow := rfl

theorem levelsAfter_stopSeq (l : Levels) : levelsAfter l stopSeq = .idle := rfl

/-- A transaction ends with its stop sequence. -/
theorem levelsAfter_txnSeq (l : Levels) (dev idx : Byte) (v : Half) : levelsAfter l (txnSeq dev idx v) = .idle := by
  rw [txnSeq, levelsAfter_append, levelsAfter_stopSeq]

theorem levelsAfter_freqSeq (l : Levels) (dev : Byte) (tw : Word) (rs : Half) :
    levelsAfter l (freqSeq dev tw rs) = .idle := by
  rw [freqSeq, levelsAfter_append, levelsAfter_txnSeq]

/-- Every command's actions end with both outputs 0 or both 1; TUNE has none. -/
theorem levelsAfter_actionsOf (i : Instr) (l : Levels) :
    actionsOf i = [] ∨ levelsAfter l (actionsOf i) = .bothLow ∨ levelsAfter l (actionsOf i) = .idle := by
  cases i with
  | start => exact .inr (.inl (levelsAfter_startSeq l))
  | stop => exact .inr (.inr (levelsAfter_stopSeq l))
  | txbyte byte => exact .inr (.inl (levelsAfter_byteSeq l byte))
  | wrreg idx value => exact .inr (.inr (levelsAfter_txnSeq l _ _ _))
  | tune mode band channel => exact .inl rfl
  | wrfreq mode band channel => exact .inr (.inr (levelsAfter_freqSeq l _ _ _))

/-- STOP, WRREG and WRFREQ are the commands whose actions end with a stop sequence. -/
theorem actionsOf_ends_with_stopSeq {i : Instr}
    (ends : i.mnemonic = "STOP" ∨ i.mnemonic = "WRREG" ∨ i.mnemonic = "WRFREQ") :
    ∃ before, actionsOf i = before ++ stopSeq := by
  cases i with
  | stop => exact ⟨[], rfl⟩
  | wrreg idx value => exact ⟨_, rfl⟩
  | wrfreq mode band channel => exact ⟨_, (List.append_assoc _ _ stopSeq).symm⟩
  | start | txbyte | tune => simp [Instr.mnemonic] at ends

/-! ### A bit cell on the idle bus (R79) -/

/-- From the idle bus a bit cell has no rising clock edge, and its data fall is a start condition. -/
theorem lineEvents_bitSeq_idle (v : Bool) : lineEvents .idle (bitSeq v) = if v then [] else [.start] := by
  cases v <;> rfl

/-- A byte's sequence, its first bit cell apart. -/
theorem byteSeq_eq_cons (b : Byte) :
    byteSeq b = bitSeq (b.getLsbD 7) ++ ((bitsMsbFirst b).tail.flatMap bitSeq ++ ackSeq) := rfl

/-! ### A transaction on the line (R73, R74) -/

/-- From levels that a sequence ends with, a start sequence shows a start condition, after a clock edge with data
released where the bus is open. -/
theorem lineEvents_startSeq_of_ended {l : Levels} (ended : l = .bothLow ∨ l = .idle) :
    lineEvents l startSeq = (if l = .idle then [] else [.bit true]) ++ [.start] := by
  obtain rfl | rfl := ended <;> decide

theorem lineEvents_stopSeq_bothLow : lineEvents .bothLow stopSeq = [.bit false, .stop] := by
  decide

/-- After its start sequence a transaction shows its four bytes and a stop condition. -/
theorem lineEvents_txnSeq (l : Levels) (dev idx : Byte) (v : Half) :
    lineEvents l (txnSeq dev idx v) = lineEvents l startSeq ++ byteEvents dev ++ byteEvents idx ++
      byteEvents ((v >>> 8).setWidth 8) ++ byteEvents (v.setWidth 8) ++ [.bit false, .stop] := by
  have byte (b : Byte) : lineEvents .bothLow (byteSeq b) = byteEvents b := lineEvents_byteSeq _ rfl b
  simp only [txnSeq_eq, lineEvents_append, levelsAfter_append, levelsAfter_startSeq, levelsAfter_byteSeq, byte,
    lineEvents_stopSeq_bothLow]

/-! ### What a list of actions costs (40_serial_bus.md R72, 70_reset_and_hazards.md R121) -/

/-- A row of the tables: the actions of a list, its `Set` actions, its cycles, the nominal microseconds of its waits
and its `N_START` waits. -/
def Costs (as : List PinAction) (actions sets cycles micros startWaits : Nat) : Prop :=
  as.length = actions ∧ as.countP PinAction.isSet = sets ∧ duration as = cycles ∧
    nominalMicros as = micros ∧ waitsOf .start as = startWaits

theorem nominalMicros_append (as bs : List PinAction) :
    nominalMicros (as ++ bs) = nominalMicros as + nominalMicros bs := by
  rw [nominalMicros, List.map_append, List.sum_append]
  rfl

theorem waitsOf_append (d : Delay) (as bs : List PinAction) :
    waitsOf d (as ++ bs) = waitsOf d as + waitsOf d bs :=
  List.count_append

theorem Costs.append {as bs : List PinAction} {n n' s s' c c' m m' w w' : Nat} (first : Costs as n s c m w)
    (second : Costs bs n' s' c' m' w') :
    Costs (as ++ bs) (n + n') (s + s') (c + c') (m + m') (w + w') := by
  obtain ⟨rfl, rfl, rfl, rfl, rfl⟩ := first
  obtain ⟨rfl, rfl, rfl, rfl, rfl⟩ := second
  exact ⟨List.length_append, List.countP_append, duration_append as bs, nominalMicros_append as bs,
    waitsOf_append .start as bs⟩

/-- Pieces of one cost, one after another. -/
theorem Costs.flatMap {α : Type} {f : α → List PinAction} {n s c m w : Nat} (each : ∀ x, Costs (f x) n s c m w)
    (xs : List α) :
    Costs (xs.flatMap f) (xs.length * n) (xs.length * s) (xs.length * c) (xs.length * m) (xs.length * w) := by
  induction xs with
  | nil => simp [Costs, nominalMicros, waitsOf]
  | cons x xs ih =>
    simpa only [List.flatMap_cons, List.length_cons, Nat.succ_mul, Nat.add_comm] using (each x).append ih

theorem Costs.cycles_eq {as : List PinAction} {n s c c' m w : Nat} (costs : Costs as n s c m w) (h : c = c') :
    Costs as n s c' m w := h ▸ costs

theorem costs_startSeq : Costs startSeq 7 4 (4 + 3 * Config.delayCycles .start) 0 3 := by
  refine ⟨rfl, rfl, ?_, rfl, rfl⟩
  simp only [startSeq, duration_cons, duration_nil, PinAction.cycles]
  omega

theorem costs_bitSeq (v : Bool) : Costs (bitSeq v) 6 3 (3 + bitDelays) 8 0 := by
  refine ⟨rfl, rfl, ?_, rfl, rfl⟩
  simp only [bitSeq, duration_cons, duration_nil, PinAction.cycles, bitDelays]
  omega

theorem costs_ackSeq : Costs ackSeq 7 4 (4 + bitDelays) 8 0 := by
  refine ⟨rfl, rfl, ?_, rfl, rfl⟩
  simp only [ackSeq, duration_cons, duration_nil, PinAction.cycles, bitDelays]
  omega

theorem costs_stopSeq : Costs stopSeq 4 2 (2 + Config.delayCycles .stop + Config.delayCycles .gap) 26 0 := by
  refine ⟨rfl, rfl, ?_, rfl, rfl⟩
  simp only [stopSeq, duration_cons, duration_nil, PinAction.cycles]
  omega

theorem costs_byteSeq (b : Byte) : Costs (byteSeq b) 55 28 (28 + 9 * bitDelays) 72 0 := by
  have cells := Costs.flatMap costs_bitSeq (bitsMsbFirst b)
  rw [show (bitsMsbFirst b).length = 8 from rfl] at cells
  exact (cells.append costs_ackSeq).cycles_eq (by omega)

theorem costs_txnSeq (dev idx : Byte) (v : Half) : Costs (txnSeq dev idx v) 231 118 txnCycles 314 3 := by
  have bytes := Costs.flatMap costs_byteSeq (txnBytes dev idx v)
  rw [show (txnBytes dev idx v).length = 4 from rfl] at bytes
  refine ((costs_startSeq.append bytes).append costs_stopSeq).cycles_eq ?_
  rw [txnCycles]
  omega

theorem costs_freqSeq (dev : Byte) (tw : Word) (rs : Half) :
    Costs (freqSeq dev tw rs) 693 354 (3 * txnCycles) 942 9 :=
  (((costs_txnSeq dev _ _).append (costs_txnSeq dev _ _)).append (costs_txnSeq dev _ _)).cycles_eq (by omega)

/-- The full program: 20 WRREGs and a WRFREQ (30_encoding.md R65). -/
theorem costs_regprog (tmpl : Nat → Half) (mode : Mode) (band channel : Byte) :
    Costs ((regprogCommands tmpl mode band channel).flatMap actionsOf) 5313 2714 (23 * txnCycles) 7222 69 := by
  rw [regprogCommands, List.flatMap_append, List.flatMap_map, List.flatMap_singleton]
  have wrregs := Costs.flatMap (fun i => costs_txnSeq Config.devAddr (BitVec.ofNat 8 i) (tmpl i)) (List.range' 4 20)
  rw [List.length_range'] at wrregs
  exact (wrregs.append (costs_freqSeq _ _ _)).cycles_eq (by omega)

/-! ### A bad word (30_encoding.md R60) -/

theorem queued_commandWrite_of_error {w : Word} {e : BadWord} (word : decode w = .error e) :
    (commandWrite w).queued = [] := by
  simp [commandWrite, HostAccess.queued, word]

/-! ### Half steps (41_frequency_synth.md R85, R89) -/

/-- The channel operand counts only by its half. -/
theorem tuningIn_congr_half {channel channel' : Byte} (same : halfChannel channel = halfChannel channel')
    (table : BandTable) (mode : Mode) (band : Byte) :
    tuningIn table mode band channel = tuningIn table mode band channel' := by
  simp only [tuningIn, same]

/-! ### The obligations -/

/-- Settles O38, sequence by sequence. -/
theorem sequencesEndAtTheirLevels : Obligations.SequencesEndAtTheirLevels :=
  fun l => ⟨levelsAfter_startSeq l, levelsAfter_bitSeq l, levelsAfter_ackSeq l, levelsAfter_byteSeq l,
    levelsAfter_stopSeq l, levelsAfter_txnSeq l⟩

/-- Settles O36: a stop sequence raises the clock, holds it, and then releases data and waits. -/
theorem stopsAreFollowedByTheGap : Obligations.StopsAreFollowedByTheGap := by
  intro i ends
  obtain ⟨before, actions⟩ := actionsOf_ends_with_stopSeq ends
  refine ⟨before ++ [.setScl true, .wait .stop], ?_, fun l => ?_⟩
  · rw [actions, List.append_assoc]
    rfl
  · rw [levelsAfter_append]
    rfl

/-- Settles O41: the first bit cell finds the clock high; the others and the acknowledge phase find it low. -/
theorem txbyteOnAnIdleBusLosesItsFirstBit : Obligations.TxbyteOnAnIdleBusLosesItsFirstBit := by
  intro b
  rw [byteSeq_eq_cons, lineEvents_append, lineEvents_append, lineEvents_bitSeq_idle, levelsAfter_bitSeq,
    lineEvents_bitCells _ rfl, lineEvents_ackSeq _ (levelsAfter_bitCells_scl _ rfl _), byteEvents_eq]
  rfl

/-- Settles O34, row by row: each sequence's cost is the sum of its pieces'. -/
theorem commandDurations : Obligations.CommandDurations :=
  ⟨costs_startSeq, costs_stopSeq, costs_byteSeq, costs_txnSeq Config.devAddr,
    fun _ _ _ => ⟨rfl, rfl, rfl, rfl, rfl⟩, fun _ _ _ => costs_freqSeq _ _ _,
    fun _ _ => queued_commandWrite_of_error, costs_regprog⟩

/-- Settles O19: channels `2k` and `2k + 1` have one half, and the commands use the tuning alone. -/
theorem oddChannelsTuneAsTheEvenOneBelow : Obligations.OddChannelsTuneAsTheEvenOneBelow := by
  intro mode band k hk
  obtain ⟨even, odd⟩ := channelsCountByHalves.2 k hk
  have same := tuningIn_congr_half (odd.trans even.symm)
  exact ⟨fun table => same table mode band, fun s => exec_congr_tuning (same Config.bandTable mode band) s⟩

end Sys2Proof.Machine
end

section
/-! PROOFS of the family 'other', 10_state.md and 70_reset_and_hazards.md: what one step can do, and the invariant
that every step keeps. -/

namespace Sys2Proof.Machine

/-! ### Two states with one block -/

theorem sameBlock_takeTurn (s : State) : sameBlock s (takeTurn s) := rfl

/-- The invariant speaks of the block only. -/
theorem Invariant.of_sameBlock {s t : State} (inv : Invariant s) (same : sameBlock s t) : Invariant t := by
  have inReset : t.resetLine = true → t.blockReset := fun asserted => by
    have reset : s.blockReset := inv.inReset (same.resetLine_eq.symm.trans asserted)
    rw [State.blockReset, same.resetLine_eq]
    exact sameBlock.trans reset same
  rw [sameBlock] at same
  rw [same] at inReset ⊢
  exact ⟨inv.traceLevels, inv.endLevels, inv.waitInside, inv.oneCommand, inReset⟩

/-! ### What a sequencer step and a command leave alone -/

@[simp] theorem sequencerStep_tuneWord (s : State) : (sequencerStep s).tuneWord = s.tuneWord := by
  rw [sequencerStep_frame]

@[simp] theorem sequencerStep_rangeSel (s : State) : (sequencerStep s).rangeSel = s.rangeSel := by
  rw [sequencerStep_frame]

@[simp] theorem sequencerStep_resetLine (s : State) : (sequencerStep s).resetLine = s.resetLine := by
  rw [sequencerStep_frame]

@[simp] theorem sequencerStep_host (s : State) : (sequencerStep s).host = s.host := by
  rw [sequencerStep_frame]

@[simp] theorem sequencerStep_turns (s : State) : (sequencerStep s).turns = s.turns := by
  rw [sequencerStep_frame]

/-- A sequencer step moves an action from the pending list to the trace, which drops and doubles none. -/
@[simp] theorem sequencerStep_committed (s : State) : (sequencerStep s).committed = s.committed := by
  cases hp : s.pending with
  | nil => rw [sequencerStep_nil hp]
  | cons a rest => simp [State.committed, sequencerStep_trace hp, sequencerStep_pending hp, hp]

/-- The result registers are written by TUNE and WRFREQ only, with the tuning of their operands
(10_state.md R22, R23). -/
theorem commandEffect_results (i : Instr) (s : State) :
    ((commandEffect i s).tuneWord = s.tuneWord ∧ (commandEffect i s).rangeSel = s.rangeSel) ∨
    ∃ mode band channel, (i = .tune mode band channel ∨ i = .wrfreq mode band channel) ∧
      (commandEffect i s).tuneWord = (computeTuning mode band channel).word ∧
      (commandEffect i s).rangeSel = (computeTuning mode band channel).rangeSel := by
  cases i with
  | tune mode band channel => exact .inr ⟨mode, band, channel, .inl rfl, rfl, rfl⟩
  | wrfreq mode band channel => exact .inr ⟨mode, band, channel, .inr rfl, rfl, rfl⟩
  | start | stop | txbyte | wrreg => exact .inl ⟨rfl, rfl⟩

/-! ### What a host access queues (10_state.md R17, 30_encoding.md R60) -/

theorem queued_commandWrite_of_ok {w : Word} {i : Instr} (word : decode w = .ok i) :
    (commandWrite w).queued = actionsOf i := by
  simp [commandWrite, HostAccess.queued, word]

theorem queued_readOnlyWrite {off : Int} {r : WindowReg} (hreg : regAt off = some r) (hro : r ≠ .cmd)
    (v : Word) : (HostAccess.write off 4 v).queued = [] := by
  have notCmd : off ≠ 0 := by
    rintro rfl
    exact hro (Option.some.inj hreg).symm
  simp [HostAccess.queued, notCmd]

/-! ### Turn by turn -/

/-- A word that decodes to a command is executed in the step that accepts it. -/
theorem acceptWord_eq_exec {w : Word} {i : Instr} (word : decode w = .ok i) (s : State) :
    acceptWord w s = exec i s := by
  simp only [acceptWord, word]

theorem step_of_releaseReset {s : State} (turn : s.nextTurn = .releaseReset) :
    step s = .next (releaseReset (takeTurn s)) := by
  simp only [step, turn, runTurn]

/-- While reset is asserted no turn but the reset input's own does anything (70_reset_and_hazards.md R108). -/
theorem step_of_inReset {s : State} (asserted : s.resetLine = true) (notAssert : s.nextTurn ≠ .assertReset)
    (notRelease : s.nextTurn ≠ .releaseReset) : step s = .next (takeTurn s) := by
  unfold step
  cases turn : s.nextTurn with
  | assertReset => exact absurd turn notAssert
  | releaseReset => exact absurd turn notRelease
  | host | sequencer | clock => simp only [runTurn, takeTurn_resetLine, asserted, if_true]

theorem step_of_host_inReset {s : State} (asserted : s.resetLine = true) (turn : s.nextTurn = .host) :
    step s = .next (takeTurn s) :=
  step_of_inReset asserted (by rw [turn]; decide) (by rw [turn]; decide)

/-- A command write to a busy block is held: only the turn goes by (10_state.md R17). -/
theorem step_of_stalledWrite {s : State} {w : Word} {rest : List HostAccess}
    (h : s.hostNext (commandWrite w) rest) (busy : s.pending ≠ []) : step s = .next (takeTurn s) := by
  have notReady : (takeTurn s).ready = false := by
    rw [← Bool.not_eq_true, ready_iff]
    exact fun ⟨_, idle⟩ => busy idle
  rw [step_of_hostNext h]
  simp [commandWrite, hostAccess, resolve, regAt, writeReg, writeCmd, notReady]

/-- A sequencer's turn with something pending performs the head action (10_state.md R28). -/
theorem step_of_sequencer_cons {s : State} {a : PinAction} {rest : List PinAction} (released : s.resetLine = false)
    (turn : s.nextTurn = .sequencer) (head : s.pending = a :: rest) :
    step s = .next { performAction a s with
      turns := s.turns.tail, pending := rest, waitPos := 0, trace := s.trace ++ [a] } := by
  rw [step_of_sequencer released turn, sequencerStep_cons (s := takeTurn s) head]
  cases a <;> rfl

theorem resolve_of_outside {off : Int} (aligned : off % 4 = 0) (outside : off < 0 ∨ 16 ≤ off) :
    resolve off 4 = .fault (.outsideWindow off) := by
  have noReg : regAt off = none := by
    unfold regAt
    split_ifs
    case neg => rfl
    all_goals omega
  rw [resolve, if_neg (not_not.2 rfl), if_neg (not_not.2 aligned), noReg]

/-- An access that faults ends the run, whether it is a read or a write. -/
theorem step_of_resolve_fault {s : State} {off : Int} {width : Nat} {v : Word} {rest : List HostAccess}
    {f : Fault} (h : s.hostNext (.read off width) rest ∨ s.hostNext (.write off width v) rest)
    (fault : resolve off width = .fault f) : step s = .fault f := by
  obtain read | write := h
  · rw [step_of_hostNext read]
    simp only [hostAccess, fault]
  · rw [step_of_hostNext write]
    simp only [hostAccess, fault]

/-! ### A host that makes only defined accesses (20_memory.md R41) -/

theorem exec_total (i : Instr) (s : State) : ∃ t, exec i s = .next t := by
  rw [exec_eq_whenReady, whenReady]
  split <;> exact ⟨_, rfl⟩

theorem acceptWord_total (w : Word) (s : State) : ∃ t, acceptWord w s = .next t := by
  cases word : decode w with
  | ok i =>
    rw [acceptWord_eq_exec word]
    exact exec_total i s
  | error e => exact ⟨raiseBadCommand s, by simp only [acceptWord, word]⟩

theorem writeReg_total (r : WindowReg) (v : Word) (s : State) : ∃ t, writeReg r v s = .next t := by
  cases r with
  | cmd =>
    rw [writeReg, writeCmd]
    split
    · exact acceptWord_total v _
    · exact ⟨s, rfl⟩
  | status | tuneWord | rangeSel => exact ⟨_, rfl⟩

/-- A 32-bit access at an offset with a register reaches that register. -/
theorem resolve_of_defined {off : Int} {width : Nat} (defined : (width == 4 && (regAt off).isSome) = true) :
    ∃ r, resolve off width = .next r := by
  rw [Bool.and_eq_true, beq_iff_eq, Option.isSome_iff_exists] at defined
  obtain ⟨word, r, hreg⟩ := defined
  exact ⟨r, resolve_next_iff.2 ⟨word, hreg⟩⟩

theorem hostAccess_total {a : HostAccess} (defined : a.defined = true) (s : State) :
    ∃ t, hostAccess a s = .next t := by
  cases a with
  | read off width =>
    obtain ⟨r, reaches⟩ := resolve_of_defined defined
    simp only [hostAccess, reaches]
    exact ⟨_, rfl⟩
  | write off width v =>
    obtain ⟨r, reaches⟩ := resolve_of_defined defined
    simp only [hostAccess, reaches]
    exact writeReg_total r v s

theorem hostTurn_total {s : State} (defined : s.hostDefined = true) : ∃ t, hostTurn s = .next t := by
  unfold hostTurn
  split
  · exact ⟨s, rfl⟩
  · next a rest head =>
    rw [State.hostDefined, head, List.all_cons, Bool.and_eq_true] at defined
    exact hostAccess_total defined.1 s

theorem runTurn_total {s : State} (defined : s.hostDefined = true) (turn : Turn) :
    ∃ t, runTurn turn s = .next t := by
  cases turn with
  | assertReset | releaseReset => exact ⟨_, rfl⟩
  | sequencer | clock =>
    rw [runTurn]
    split <;> exact ⟨_, rfl⟩
  | host =>
    rw [runTurn]
    split
    · exact ⟨s, rfl⟩
    · exact hostTurn_total defined

/-! ### What one step completes -/

/-- A step completes at most the host's first accesses, and, reset aside, the block is committed to the actions
that these queue and to no others. -/
theorem step_completes {s t : State} (h : step s = .next t) :
    ∃ completed : List HostAccess, s.host = completed ++ t.host ∧
      (s.nextTurn ≠ .assertReset → t.committed = s.committed ++ completed.flatMap HostAccess.queued) := by
  cases step_cases h with
  | asserted turn => exact ⟨[], rfl, fun other => absurd turn other⟩
  | released | held | waiting => exact ⟨[], rfl, fun _ => (List.append_nil _).symm⟩
  | sequencer =>
    have kept := sequencerStep_committed (takeTurn s)
    exact ⟨[], by simp, fun _ => kept.trans (List.append_nil _).symm⟩
  | read off rest r released turn head at_ =>
    exact ⟨[.read off 4], by simp [head], fun _ => (List.append_nil _).symm⟩
  | ignored off rest v r released turn head at_ ro =>
    refine ⟨[.write off 4 v], by simp [head], fun _ => ?_⟩
    rw [List.flatMap_singleton, queued_readOnlyWrite at_ ro, List.append_nil]
    rfl
  | accepted off rest v i ready turn head at_ word =>
    obtain ⟨⟨-, -, head'⟩, idle⟩ := hostNext_of_accepted ready turn head at_
    rw [memWrite_base] at head'
    refine ⟨[commandWrite v], by simp [head'], fun _ => ?_⟩
    have queue : (commandEffect i (completeAccess (takeTurn s))).pending = actionsOf i :=
      commandEffect_pending i _ idle
    rw [List.flatMap_singleton, queued_commandWrite_of_ok word, State.committed, State.committed, queue, idle]
    simp
  | bad off rest v e ready turn head at_ word =>
    obtain ⟨⟨-, -, head'⟩, idle⟩ := hostNext_of_accepted ready turn head at_
    rw [memWrite_base] at head'
    refine ⟨[commandWrite v], by simp [head'], fun _ => ?_⟩
    rw [List.flatMap_singleton, queued_commandWrite_of_error word, List.append_nil]
    rfl

theorem nextTurn_ne_of_not_mem {s : State} (noReset : Turn.assertReset ∉ s.turns) :
    s.nextTurn ≠ .assertReset := by
  cases turns : s.turns with
  | nil =>
    rw [nextTurn_of_nil turns]
    split <;> decide
  | cons t ts =>
    rw [nextTurn_of_cons turns]
    rintro rfl
    exact noReset (turns ▸ List.mem_cons_self)

/-! ### What every step keeps -/

theorem Invariant.assertReset (s : State) : Invariant (assertReset s) :=
  ⟨rfl, .inr rfl, .inl rfl, .inl rfl, fun _ => rfl⟩

theorem Invariant.releaseReset {s : State} (inv : Invariant s) : Invariant (releaseReset s) :=
  ⟨inv.traceLevels, inv.endLevels, inv.waitInside, inv.oneCommand, nofun⟩

theorem Invariant.sequencerStep {s : State} (inv : Invariant s) (released : s.resetLine = false) :
    Invariant (sequencerStep s) := by
  cases head : s.pending with
  | nil =>
    rw [sequencerStep_nil head]
    exact inv
  | cons a rest =>
    have levels := sequencerStep_levels head
    have pending := sequencerStep_pending head
    have trace := sequencerStep_trace head
    refine ⟨?_, ?_, .inl (sequencerStep_waitPos head), ?_, fun asserted => ?_⟩
    · rw [trace, levels, levelsAfter_append, inv.traceLevels]
      rfl
    · rw [levels, pending, ← levelsAfter_cons, ← head]
      exact inv.endLevels
    · obtain idle | ⟨i, earlier, done, traceEq, actions⟩ := inv.oneCommand
      · exact absurd (idle.symm.trans head) (by simp)
      · refine .inr ⟨i, earlier, done ++ [a], ?_, ?_⟩
        · rw [trace, traceEq, List.append_assoc]
        · rw [pending, List.append_assoc, List.singleton_append, ← head, actions]
    · rw [sequencerStep_resetLine, released] at asserted
      exact nomatch asserted

/-- A clock cycle inside a `Wait` keeps the position before its end. -/
theorem Invariant.waiting {s : State} {d : Delay} {rest : List PinAction} (inv : Invariant s)
    (released : s.resetLine = false) (head : s.pending = .wait d :: rest)
    (inside : s.waitPos + 1 < Config.delayCycles d) : Invariant { s with waitPos := s.waitPos + 1 } :=
  ⟨inv.traceLevels, inv.endLevels, .inr ⟨d, rest, head, inside⟩, inv.oneCommand,
    fun asserted => nomatch released.symm.trans asserted⟩

/-- On an idle block no `Wait` is in progress. -/
theorem Invariant.waitPos_of_idle {s : State} (inv : Invariant s) (idle : s.pending = []) : s.waitPos = 0 := by
  obtain zero | ⟨d, rest, head, -⟩ := inv.waitInside
  · exact zero
  · exact nomatch idle.symm.trans head

theorem Invariant.commandEffect {s : State} (inv : Invariant s) (ready : s.ready = true) (i : Instr) :
    Invariant (commandEffect i s) := by
  obtain ⟨released, idle⟩ := ready_iff.1 ready
  have queue := commandEffect_pending i s idle
  refine ⟨?_, ?_, ?_, ?_, fun asserted => ?_⟩
  · rw [commandEffect_trace, commandEffect_levels]
    exact inv.traceLevels
  · rw [commandEffect_levels, queue]
    obtain none | ends := levelsAfter_actionsOf i s.levels
    · rw [none, ← idle]
      exact inv.endLevels
    · exact ends
  · rw [commandEffect_waitPos]
    exact .inl (inv.waitPos_of_idle idle)
  · exact .inr ⟨i, s.trace, [], by rw [commandEffect_trace, List.append_nil], by rw [queue, List.nil_append]⟩
  · rw [commandEffect_resetLine, released] at asserted
    exact nomatch asserted

theorem Invariant.raiseBadCommand {s : State} (inv : Invariant s) (released : s.resetLine = false) :
    Invariant (raiseBadCommand s) :=
  ⟨inv.traceLevels, inv.endLevels, inv.waitInside, inv.oneCommand,
    fun asserted => nomatch released.symm.trans asserted⟩

/-! ### The obligations: one step -/

/-- Settles O7: the step accepts the word, and its acceptance is `exec`. -/
theorem stepRunsTheAcceptedCommand : Obligations.StepRunsTheAcceptedCommand := by
  intro s w i rest next idle word
  rw [memWrite_base] at next
  rw [step_of_commandWrite next idle, acceptWord_eq_exec word]

/-- Settles O8: placing a word makes it the host's next access on an idle block, and accepting it takes it away
again. -/
theorem stepRunsThePlacedCommand : Obligations.StepRunsThePlacedCommand := by
  intro s w i table
  have word : decode (BitVec.ofNat 32 (w % 2 ^ 32)) = .ok i := by
    rw [decodeTableWord, if_pos (Nat.mod_lt w (by decide))] at table
    cases read : decode (BitVec.ofNat 32 (w % 2 ^ 32)) with
    | ok j =>
      rw [read] at table
      rw [Option.some.inj table]
    | error e =>
      rw [read] at table
      exact nomatch table
  have next : (s.withFetchWord 32 w).hostNext (commandWrite (BitVec.ofNat 32 (w % 2 ^ 32))) s.host :=
    ⟨rfl, rfl, rfl⟩
  rw [step_of_commandWrite next rfl, acceptWord_eq_exec word]
  rfl

/-- Settles O13: a busy or reset block is not ready, and there a command waits. -/
theorem commandsWaitOnABusyBlock : Obligations.CommandsWaitOnABusyBlock := by
  intro i s why
  have notReady : s.ready = false := by
    rw [← Bool.not_eq_true, ready_iff]
    rintro ⟨released, idle⟩
    obtain busy | asserted := why
    · exact busy idle
    · exact nomatch released.symm.trans asserted
  rw [exec_eq_whenReady, whenReady_of_not_ready notReady]

/-- Settles O26: outside the 16 bytes no offset has a register. -/
theorem accessesOutsideTheWindowFault : Obligations.AccessesOutsideTheWindowFault := by
  intro s addr v rest next aligned outside
  refine step_of_resolve_fault next (resolve_of_outside ((offset_emod_four_eq_zero_iff addr).2 aligned) ?_)
  omega

/-- Settles O28: the head action performed, action by action. -/
theorem sequencerPerformsTheHeadAction : Obligations.SequencerPerformsTheHeadAction := by
  intro s released turn
  refine ⟨fun idle => ?_, fun v rest head => ?_, fun v rest head => ?_, fun d rest head => ?_⟩
  · rw [step_of_sequencer released turn, sequencerStep_nil (s := takeTurn s) idle]
    rfl
  all_goals exact step_of_sequencer_cons released turn head

/-- Settles O22, over the cases of a step: only TUNE and WRFREQ write the results, and reset clears them. -/
theorem resultsChangeOnlyByTuneWrfreqOrReset : Obligations.ResultsChangeOnlyByTuneWrfreqOrReset := by
  intro s t h
  cases step_cases h with
  | asserted turn => exact .inr (.inl ⟨turn, rfl, rfl⟩)
  | accepted off rest v i ready turn head at_ word =>
    obtain ⟨next, idle⟩ := hostNext_of_accepted ready turn head at_
    obtain kept | ⟨mode, band, channel, which, tuneWord, rangeSel⟩ :=
      commandEffect_results i (completeAccess (takeTurn s))
    · exact .inl kept
    · have decoded := which.imp (fun tune => tune ▸ word) (fun wrfreq => wrfreq ▸ word)
      exact .inr (.inr ⟨v, rest, mode, band, channel, next, idle, decoded, tuneWord, rangeSel⟩)
  | sequencer => exact .inl ⟨by simp, by simp⟩
  | released | held | waiting | read | ignored | bad => exact .inl ⟨rfl, rfl⟩

/-- Settles O29, over the cases of a step. -/
theorem pendingMovesOnlyForward : Obligations.PendingMovesOnlyForward := by
  refine ⟨fun s t h => ?_, fun s released turn busy => ?_⟩
  · cases step_cases h with
    | asserted turn => exact .inr (.inr (.inr ⟨turn, rfl, rfl⟩))
    | accepted off rest v i ready turn head at_ word =>
      obtain ⟨next, idle⟩ := hostNext_of_accepted ready turn head at_
      have queue : (commandEffect i (completeAccess (takeTurn s))).pending = actionsOf i :=
        commandEffect_pending i _ idle
      exact .inr (.inr (.inl ⟨v, rest, i, next, word, idle, queue, commandEffect_trace i _⟩))
    | sequencer released turn =>
      cases head : s.pending with
      | nil =>
        rw [sequencerStep_nil (s := takeTurn s) head]
        exact .inl ⟨head, rfl⟩
      | cons a rest =>
        have head' : (takeTurn s).pending = a :: rest := head
        rw [sequencerStep_pending head', sequencerStep_trace head']
        exact .inr (.inl ⟨a, rfl, rfl, turn⟩)
    | released | held | waiting | read | ignored | bad => exact .inl ⟨rfl, rfl⟩
  · obtain ⟨a, rest, head⟩ := List.exists_cons_of_ne_nil busy
    exact ⟨a, rest, head, step_of_sequencer_cons released turn head⟩

/-- Settles O49: `State.reset` is a block whose reset has been asserted and released. -/
theorem resetMeetsTheInvariant : Obligations.ResetMeetsTheInvariant :=
  (Invariant.assertReset State.reset).releaseReset

/-- Settles O50, over the cases of a step. -/
theorem everyStepKeepsTheInvariant : Obligations.EveryStepKeepsTheInvariant := by
  intro s t inv h
  have taken : Invariant (takeTurn s) := inv.of_sameBlock (sameBlock_takeTurn s)
  have completed : Invariant (completeAccess (takeTurn s)) := taken.of_sameBlock rfl
  cases step_cases h with
  | asserted => exact .assertReset _
  | released => exact taken.releaseReset
  | held => exact taken
  | sequencer released => exact taken.sequencerStep released
  | waiting d rest released turn head inside => exact taken.waiting released head inside
  | read => exact taken.of_sameBlock rfl
  | ignored => exact completed
  | accepted off rest v i ready => exact completed.commandEffect ready i
  | bad off rest v e ready => exact completed.raiseBadCommand (ready_iff.1 ready).1

/-! ### The obligations: runs of every length -/

/-- Settles O31, by induction on the number of steps: each completes a further part of the host's accesses. -/
theorem commandsArePerformedInOrder : Obligations.CommandsArePerformedInOrder := by
  intro n
  induction n with
  | zero =>
    intro s t _ h
    rw [← next_inj h]
    exact ⟨[], rfl, (List.append_nil _).symm⟩
  | succ n ih =>
    intro s t noReset h
    obtain ⟨u, first, others⟩ := run_succ_cases h
    obtain ⟨completed, host, committed⟩ := step_completes first
    have noReset' : Turn.assertReset ∉ u.turns := by
      rw [step_turns first]
      exact fun mem => noReset (List.mem_of_mem_tail mem)
    obtain ⟨later, host', committed'⟩ := ih u t noReset' others
    refine ⟨completed ++ later, ?_, ?_⟩
    · rw [host, host', List.append_assoc]
    · rw [committed', committed (nextTurn_ne_of_not_mem noReset), List.flatMap_append, List.append_assoc]

/-- Settles O48, by induction on the number of steps: a step goes on, and what is left of the host's accesses is
still defined. -/
theorem definedAccessesNeverStop : Obligations.DefinedAccessesNeverStop := by
  intro n
  induction n with
  | zero => exact fun s defined => ⟨s, rfl, defined⟩
  | succ n ih =>
    intro s defined
    obtain ⟨u, first⟩ : ∃ u, step s = .next u := runTurn_total (s := takeTurn s) defined s.nextTurn
    obtain ⟨completed, host, -⟩ := step_completes first
    have defined' : u.hostDefined = true := by
      rw [State.hostDefined, host, List.all_append, Bool.and_eq_true] at defined
      exact defined.2
    rw [run_succ_of_next first]
    exact ih u defined'

/-! ### The obligations: reset -/

/-- Settles O46: the reset turns' own steps; and the stalled write, held before the reset and during it, is the
next access of a ready block after the release. -/
theorem resetEndsEverythingAtOnce : Obligations.ResetEndsEverythingAtOnce := by
  refine ⟨fun s => step_of_assertReset, fun s => step_of_inReset, fun s => step_of_releaseReset, ?_⟩
  intro s w rest tail busy released host turns
  rw [memWrite_base] at host
  obtain ⟨sda, scl, pending, pos, bad, tw, rs, trace, line, accesses, turnList, reads⟩ := s
  cases released
  cases host
  cases turns
  refine (run_succ_of_next (step_of_stalledWrite ⟨rfl, rfl, rfl⟩ busy)).trans ?_
  refine (run_succ_of_next (step_of_assertReset rfl)).trans ?_
  refine (run_succ_of_next (step_of_host_inReset rfl rfl)).trans ?_
  refine (run_succ_of_next (step_of_releaseReset rfl)).trans ((run_one _).trans ?_)
  exact step_of_commandWrite ⟨rfl, rfl, rfl⟩ rfl

end Sys2Proof.Machine
end

section
/-! PROOFS of the family 'other': whole runs. The sequencer and the clock perform what is pending, and commands are
run to their ends one after another. -/

namespace Sys2Proof.Machine

/-! ### Performing everything that is pending (10_state.md R28) -/

/-- A sequencer step goes towards the state in which everything pending has been performed. -/
theorem drained_sequencerStep (s : State) : drained (sequencerStep s) = drained s := by
  cases head : s.pending with
  | nil => rw [sequencerStep_nil head]
  | cons a rest =>
    rw [drained, sequencerStep_levels head, sequencerStep_pending head, sequencerStep_trace head, drained, head,
      levelsAfter_cons, List.append_assoc, List.singleton_append, sequencerStep_cons head]
    cases a <;> rfl

theorem drained_of_idle {s : State} (idle : s.pending = []) (noWait : s.waitPos = 0) : drained s = s := by
  obtain ⟨⟩ := s
  cases idle
  cases noWait
  rw [drained, List.append_nil]
  rfl

theorem sequencerStep_pending_eq_tail (s : State) : (sequencerStep s).pending = s.pending.tail := by
  cases head : s.pending with
  | nil => rw [sequencerStep_nil head, head, List.tail_nil]
  | cons a rest => rw [sequencerStep_pending head, List.tail_cons]

/-- The sequencer does not look at what is the host's. -/
theorem sameBlock.sequencerStep {s t : State} (same : sameBlock s t) :
    sameBlock (sequencerStep s) (sequencerStep t) := by
  rw [sameBlock] at same
  cases head : s.pending with
  | nil =>
    have head' : t.pending = [] := by rw [same, head]
    rw [sequencerStep_nil head, sequencerStep_nil head']
    exact same
  | cons a rest =>
    have head' : t.pending = a :: rest := by rw [same, head]
    rw [sequencerStep_cons head, sequencerStep_cons head', same]
    cases a <;> rfl

/-! ### Whose turn it is where none is prescribed (20_memory.md R46) -/

theorem clear_turns {s : State} (turns : s.turns = []) : { s with turns := [] } = s := by
  obtain ⟨⟩ := s
  cases turns
  rfl

theorem afterAccess_of_noTurns {s : State} (turns : s.turns = []) (rest : List HostAccess) :
    s.afterAccess rest = { s with host := rest } := by
  rw [State.afterAccess, turns]
  rfl

/-- A host without an access leaves the turn to the sequencer. -/
theorem nextTurn_of_noAccess {s : State} (turns : s.turns = []) (host : s.host = []) : s.nextTurn = .sequencer := by
  rw [nextTurn_of_nil turns, hostEnabled, host]
  rfl

/-- A host whose command write is stalled leaves the turn to the sequencer. -/
theorem nextTurn_of_stalledWrite {s : State} {a : HostAccess} {rest : List HostAccess} (turns : s.turns = [])
    (host : s.host = a :: rest) (write : a.isCommandWrite = true) (busy : s.pending ≠ []) :
    s.nextTurn = .sequencer := by
  have disabled : hostEnabled s = false := by simp [hostEnabled, host, write, busy_eq_true_iff.2 busy]
  rw [nextTurn_of_nil turns, disabled]
  rfl

/-- On an idle block a command write takes the turn. -/
theorem hostNext_commandWrite_of_idle {s : State} {w : Word} {rest : List HostAccess} (released : s.resetLine = false)
    (idle : s.pending = []) (turns : s.turns = []) (host : s.host = commandWrite w :: rest) :
    s.hostNext (commandWrite w) rest := by
  have enabled : hostEnabled s = true := by simp [hostEnabled, host, released, busy_eq_false_iff.2 idle]
  refine ⟨released, ?_, host⟩
  rw [nextTurn_of_nil turns, enabled]
  rfl

/-- The sequencer has the turns until nothing is pending: they are prescribed so; or none is prescribed, and the
host's next access, if there is one, is a command write, which stalls. -/
def SequencerMoves (s : State) : Prop :=
  s.turns = List.replicate s.pending.length .sequencer ∨
    (s.turns = [] ∧ ∀ a rest, s.host = a :: rest → a.isCommandWrite = true)

theorem SequencerMoves.turns_of_idle {s : State} (moves : SequencerMoves s) (idle : s.pending = []) :
    s.turns = [] := by
  obtain turns | ⟨turns, -⟩ := moves
  · rw [turns, idle]
    rfl
  · exact turns

theorem SequencerMoves.nextTurn {s : State} {a : PinAction} {rest : List PinAction} (moves : SequencerMoves s)
    (head : s.pending = a :: rest) : s.nextTurn = .sequencer := by
  obtain turns | ⟨turns, writes⟩ := moves
  · rw [head] at turns
    exact nextTurn_of_cons turns
  · cases host : s.host with
    | nil => exact nextTurn_of_noAccess turns host
    | cons access others =>
      exact nextTurn_of_stalledWrite turns host (writes access others host) (by rw [head]; exact List.cons_ne_nil _ _)

theorem SequencerMoves.step {s : State} {a : PinAction} {rest : List PinAction} (moves : SequencerMoves s)
    (head : s.pending = a :: rest) : SequencerMoves (sequencerStep (takeTurn s)) := by
  rw [SequencerMoves, sequencerStep_turns, sequencerStep_host, takeTurn_turns, takeTurn_host,
    sequencerStep_pending (s := takeTurn s) head]
  obtain turns | ⟨turns, writes⟩ := moves
  · rw [turns, head]
    exact .inl rfl
  · rw [turns]
    exact .inr ⟨rfl, writes⟩

/-- Given the turns, the sequencer performs everything that is pending, one action in each step. -/
theorem run_pending {s : State} (released : s.resetLine = false) (moves : SequencerMoves s)
    (noWait : s.pending = [] → s.waitPos = 0) : run s.pending.length s = .next { drained s with turns := [] } := by
  induction head : s.pending generalizing s with
  | nil =>
    rw [drained_of_idle head (noWait head), clear_turns (moves.turns_of_idle head)]
    rfl
  | cons a rest ih =>
    have first := step_of_sequencer released (moves.nextTurn head)
    have head' : (takeTurn s).pending = a :: rest := head
    have others := ih (s := sequencerStep (takeTurn s)) (by rw [sequencerStep_resetLine]; exact released)
      (moves.step head) (fun _ => sequencerStep_waitPos head') (sequencerStep_pending head')
    rw [List.length_cons, run_succ_of_next first, others, drained_sequencerStep]
    rfl

/-! ### Commands run to their ends, one after another -/

/-- The results a command latches (41_frequency_synth.md R91, R92). -/
def latchResults : Instr → State → State
  | .tune mode band channel, s => latchTuning (computeTuning mode band channel) s
  | .wrfreq mode band channel, s => latchTuning (computeTuning mode band channel) s
  | .start, s => s
  | .stop, s => s
  | .txbyte _, s => s
  | .wrreg _ _, s => s

/-- On an idle block a command latches its results and queues its actions. -/
theorem commandEffect_eq_enqueue (i : Instr) {s : State} (idle : s.pending = []) :
    commandEffect i s = enqueue (actionsOf i) (latchResults i s) := by
  cases i with
  | tune mode band channel =>
    obtain ⟨⟩ := s
    cases idle
    rfl
  | start | stop | txbyte | wrreg | wrfreq => rfl

/-- The state after commands run to their ends: their results latched in order, and all their actions performed. -/
def commandsDone (is : List Instr) (s : State) : State :=
  drained (enqueue (is.flatMap actionsOf) (is.foldl (fun s i => latchResults i s) s))

/-- Two lists of actions performed one after the other. -/
theorem drained_enqueue_append (as bs : List PinAction) (s : State) :
    drained (enqueue bs (drained (enqueue as s))) = drained (enqueue (as ++ bs) s) := by
  simp only [drained, enqueue, State.levels, levelsAfter_append, List.append_assoc]

/-- Latching is apart from the pin actions. -/
theorem foldl_latchResults_drained (is : List Instr) (as : List PinAction) (s : State) :
    is.foldl (fun s i => latchResults i s) (drained (enqueue as s)) =
      drained (enqueue as (is.foldl (fun s i => latchResults i s) s)) := by
  induction is generalizing s with
  | nil => rfl
  | cons i is ih =>
    have latched : latchResults i (drained (enqueue as s)) = drained (enqueue as (latchResults i s)) := by
      cases i <;> rfl
    rw [List.foldl_cons, latched, ih, List.foldl_cons]

theorem commandsDone_nil {s : State} (idle : s.pending = []) (noWait : s.waitPos = 0) : commandsDone [] s = s := by
  have empty : enqueue [] s = s := by
    obtain ⟨⟩ := s
    cases idle
    rfl
  rw [commandsDone, List.flatMap_nil, List.foldl_nil, empty, drained_of_idle idle noWait]

theorem commandsDone_cons (i : Instr) (is : List Instr) {s : State} (idle : s.pending = []) :
    commandsDone is (drained (commandEffect i s)) = commandsDone (i :: is) s := by
  rw [commandEffect_eq_enqueue i idle, commandsDone, foldl_latchResults_drained, drained_enqueue_append]
  rfl

/-- A command does not look at the host's accesses. -/
theorem commandEffect_withHost (i : Instr) (s : State) (h : List HostAccess) :
    commandEffect i { s with host := h } = { commandEffect i s with host := h } := by
  cases i <;> rfl

theorem drained_commandEffect_withHost (i : Instr) (s : State) (h h' : List HostAccess) :
    { drained (commandEffect i { s with host := h }) with host := h' } =
      drained (commandEffect i { s with host := h' }) := by
  rw [commandEffect_withHost i s h, commandEffect_withHost i s h']
  rfl

/-- A command written to an idle block is accepted and its actions performed: one step for it and one for each
action. Further command writes of the host's stall meanwhile. -/
theorem run_command {i : Instr} {rest : List HostAccess} {s : State} (released : s.resetLine = false)
    (idle : s.pending = []) (noWait : s.waitPos = 0) (turns : s.turns = [])
    (host : s.host = commandWrite (encode i) :: rest) (writes : ∀ a ∈ rest, a.isCommandWrite = true) :
    run (1 + (actionsOf i).length) s = .next (drained (commandEffect i { s with host := rest })) := by
  have next := hostNext_commandWrite_of_idle released idle turns host
  have accepted : run 1 s = .next (commandEffect i { s with host := rest }) := by
    rw [run_one, step_of_commandWrite next idle, afterAccess_of_noTurns turns, acceptWord_eq_exec (decode_encode i)]
    exact exec_of_idle (s := { s with host := rest }) released idle i
  have queue : (commandEffect i { s with host := rest }).pending = actionsOf i := commandEffect_pending i _ idle
  have noTurns : (commandEffect i { s with host := rest }).turns = [] := (commandEffect_turns i _).trans turns
  have moves : SequencerMoves (commandEffect i { s with host := rest }) := by
    refine .inr ⟨noTurns, fun a others head => writes a ?_⟩
    rw [show rest = a :: others from (commandEffect_host i _).symm.trans head]
    exact List.mem_cons_self
  have performed := run_pending (s := commandEffect i { s with host := rest })
    ((commandEffect_resetLine i _).trans released) moves fun _ => (commandEffect_waitPos i _).trans noWait
  rw [queue, clear_turns (s := drained _) noTurns] at performed
  rw [run_add accepted, performed]

/-- The host's writes of commands to `CMD`, one after another, as `withCommands` has them. -/
def commandWrites (is : List Instr) : List HostAccess := is.map fun i => commandWrite (encode i)

/-- A host that writes commands to an idle block gets each accepted right after the last action of the one before. -/
theorem run_commands (is : List Instr) {s : State} (released : s.resetLine = false) (idle : s.pending = [])
    (noWait : s.waitPos = 0) (turns : s.turns = []) (host : s.host = commandWrites is) :
    run (is.length + (is.flatMap actionsOf).length) s = .next (commandsDone is { s with host := [] }) := by
  induction is generalizing s with
  | nil =>
    rw [commandsDone_nil (s := { s with host := [] }) idle noWait]
    obtain ⟨⟩ := s
    cases host
    rfl
  | cons i is ih =>
    have writes : ∀ a ∈ commandWrites is, a.isCommandWrite = true := List.forall_mem_map.2 fun _ _ => rfl
    have first := run_command (rest := commandWrites is) released idle noWait turns host writes
    have others := ih (s := drained (commandEffect i { s with host := commandWrites is }))
      ((commandEffect_resetLine i _).trans released) rfl rfl ((commandEffect_turns i _).trans turns)
      (commandEffect_host i _)
    have steps : (i :: is).length + ((i :: is).flatMap actionsOf).length =
        1 + (actionsOf i).length + (is.length + (is.flatMap actionsOf).length) := by
      rw [List.flatMap_cons, List.length_append, List.length_cons]
      omega
    rw [steps, run_add first, others, drained_commandEffect_withHost,
      commandsDone_cons i is (s := { s with host := [] }) idle]

/-- The run of `withCommands`, of as many steps as there are commands and actions. -/
theorem run_withCommands {is : List Instr} {s : State} {actions : List PinAction} {k : Nat} (inv : Invariant s)
    (released : s.resetLine = false) (idle : s.pending = []) (queue : is.flatMap actionsOf = actions)
    (steps : is.length + actions.length = k) :
    run k (withCommands is s) = .next (commandsDone is { s with host := [], turns := [] }) := by
  rw [← steps, ← queue]
  exact run_commands is (s := withCommands is s) released idle (inv.waitPos_of_idle idle) rfl rfl

/-! The actions of the lists of commands that the statements compare (40_serial_bus.md R82, 41_frequency_synth.md
R93). -/

theorem flatMap_actionsOf_wrreg (idx : Byte) (value : Half) :
    [Instr.wrreg idx value].flatMap actionsOf = txnSeq Config.devAddr idx value :=
  List.flatMap_singleton _ _

theorem flatMap_actionsOf_sixCommands (idx : Byte) (value : Half) :
    [Instr.start, .txbyte Config.devAddr, .txbyte idx, .txbyte ((value >>> 8).setWidth 8),
      .txbyte (value.setWidth 8), .stop].flatMap actionsOf = txnSeq Config.devAddr idx value := by
  simp [actionsOf, txnSeq_eq]

theorem flatMap_actionsOf_wrfreq (mode : Mode) (band channel : Byte) :
    [Instr.wrfreq mode band channel].flatMap actionsOf =
      freqSeq Config.devAddr (computeTuning mode band channel).word (computeTuning mode band channel).rangeSel :=
  List.flatMap_singleton _ _

theorem flatMap_actionsOf_tuneAndWrregs (mode : Mode) (band channel : Byte) :
    [Instr.tune mode band channel, .wrreg 2#8 (computeTuning mode band channel).rangeSel,
      .wrreg 1#8 ((computeTuning mode band channel).word.setWidth 16),
      .wrreg 0#8 (((computeTuning mode band channel).word >>> 16).setWidth 16)].flatMap actionsOf =
      freqSeq Config.devAddr (computeTuning mode band channel).word (computeTuning mode band channel).rangeSel := by
  simp [actionsOf, freqSeq_eq]

/-! ### Cycle by cycle (10_state.md R27, R32, 60_exceptions.md R105) -/

/-- A clock cycle ends the head action in the action's last cycle and only counts before that. -/
theorem clockCycle_cons {s : State} {a : PinAction} {rest : List PinAction} (head : s.pending = a :: rest) :
    clockCycle s = if s.waitPos + 1 < a.cycles then { s with waitPos := s.waitPos + 1 } else sequencerStep s := by
  cases a <;> simp [clockCycle, head, PinAction.cycles]

theorem clockCycle_nil {s : State} (idle : s.pending = []) : clockCycle s = s := by
  simp [clockCycle, idle, sequencerStep_nil idle]

@[simp] theorem clockCycle_resetLine (s : State) : (clockCycle s).resetLine = s.resetLine := by
  obtain ⟨d, rest, head, inside, cycle⟩ | cycle := clockCycle_cases s
  · rw [cycle]
  · rw [cycle, sequencerStep_resetLine]

/-- The clock does not look at the list of turns. -/
theorem clockCycle_withTurns (s : State) (ts : List Turn) :
    clockCycle { s with turns := ts } = { clockCycle s with turns := ts } := by
  obtain ⟨sda, scl, pending, pos, bad, tw, rs, trace, line, host, turns, reads⟩ := s
  cases pending with
  | nil => rfl
  | cons a rest =>
    rw [clockCycle_cons (a := a) (rest := rest) rfl, clockCycle_cons (a := a) (rest := rest) rfl]
    split
    · rfl
    · cases a <;> rfl

theorem iterate_clockCycle_withTurns (k : Nat) (s : State) (ts : List Turn) :
    clockCycle^[k] { s with turns := ts } = { clockCycle^[k] s with turns := ts } :=
  Function.Commute.iterate_left (g := fun s : State => { s with turns := ts })
    (fun s => clockCycle_withTurns s ts) k s

theorem Invariant.clockCycle {s : State} (inv : Invariant s) (released : s.resetLine = false) :
    Invariant (clockCycle s) := by
  obtain ⟨d, rest, head, inside, cycle⟩ | cycle := clockCycle_cases s
  · rw [cycle]
    exact inv.waiting released head inside
  · rw [cycle]
    exact inv.sequencerStep released

theorem drained_clockCycle (s : State) : drained (clockCycle s) = drained s := by
  obtain ⟨d, rest, head, inside, cycle⟩ | cycle := clockCycle_cases s
  · rw [cycle]
    rfl
  · rw [cycle, drained_sequencerStep]

/-- As many clock cycles as there are turns, all of them the clock's. -/
theorem run_clock (k : Nat) {s : State} (released : s.resetLine = false) (turns : s.turns = List.replicate k .clock) :
    run k s = .next { clockCycle^[k] s with turns := [] } := by
  induction k generalizing s with
  | zero =>
    rw [Function.iterate_zero, id_eq, clear_turns turns]
    rfl
  | succ k ih =>
    have first := step_of_clock released (nextTurn_of_cons turns)
    have left : takeTurn s = { s with turns := List.replicate k .clock } := by
      rw [takeTurn, turns]
      rfl
    rw [left, clockCycle_withTurns] at first
    rw [run_succ_of_next first, ih (s := { clockCycle s with turns := List.replicate k .clock })
      ((clockCycle_resetLine s).trans released) rfl, iterate_clockCycle_withTurns, Function.iterate_succ_apply]

/-- The levels of the cycles that are left: those of the pending list's waveform, without the cycles of the `Wait`
in progress that have gone by. -/
def levelsLeft (s : State) : List Levels := (levelsInCycles s.levels s.pending).drop s.waitPos

theorem length_levelsLeft (s : State) : (levelsLeft s).length = cyclesLeft s := by
  rw [levelsLeft, List.length_drop, length_levelsInCycles, cyclesLeft]

theorem levelsLeft_of_idle {s : State} (idle : s.pending = []) : levelsLeft s = [] := by
  rw [levelsLeft, idle, levelsInCycles_nil, List.drop_nil]

theorem Invariant.waitPos_lt_cycles {s : State} {a : PinAction} {rest : List PinAction} (inv : Invariant s)
    (head : s.pending = a :: rest) : s.waitPos < a.cycles := by
  obtain zero | ⟨d, others, head', inside⟩ := inv.waitInside
  · rw [zero]
    exact one_le_cycles a
  · obtain ⟨rfl, -⟩ := List.cons.inj (head.symm.trans head')
    exact inside

/-- Only a `Wait` lasts longer than a cycle, and it changes no level. -/
theorem levelsAfter_of_one_lt_cycles {a : PinAction} (long : 1 < a.cycles) (l : Levels) : a.levelsAfter l = l := by
  cases a with
  | setSda | setScl => exact absurd long (lt_irrefl 1)
  | wait d => rfl

/-- A clock cycle takes the next of the levels that are left. -/
theorem levelsLeft_eq_cons {s : State} (inv : Invariant s) (busy : s.pending ≠ []) :
    levelsLeft s = (clockCycle s).levels :: levelsLeft (clockCycle s) := by
  obtain ⟨a, rest, head⟩ := List.exists_cons_of_ne_nil busy
  have before := inv.waitPos_lt_cycles head
  have left {p : Nat} (within : p ≤ a.cycles) : (levelsInCycles s.levels s.pending).drop p =
      List.replicate (a.cycles - p) (a.levelsAfter s.levels) ++ levelsInCycles (a.levelsAfter s.levels) rest := by
    rw [head, levelsInCycles_cons, List.drop_append_of_le_length (by rwa [List.length_replicate]), List.drop_replicate]
  rw [levelsLeft, left before.le, clockCycle_cons head]
  split
  · next inside =>
    have counted : levelsLeft { s with waitPos := s.waitPos + 1 } = _ := left inside.le
    rw [counted, show a.cycles - s.waitPos = a.cycles - (s.waitPos + 1) + 1 by omega,
      List.replicate_succ, levelsAfter_of_one_lt_cycles (by omega)]
    rfl
  · rw [show a.cycles - s.waitPos = 1 by omega, levelsLeft, sequencerStep_levels head, sequencerStep_pending head,
      sequencerStep_waitPos head]
    rfl

theorem levelsLeft_eq_nil_iff {s : State} (inv : Invariant s) : levelsLeft s = [] ↔ s.pending = [] := by
  refine ⟨fun none => ?_, levelsLeft_of_idle⟩
  by_contra busy
  rw [levelsLeft_eq_cons inv busy] at none
  exact List.cons_ne_nil _ _ none

theorem levelsLeft_clockCycle {s : State} (inv : Invariant s) : levelsLeft (clockCycle s) = (levelsLeft s).tail := by
  by_cases idle : s.pending = []
  · rw [clockCycle_nil idle, levelsLeft_of_idle idle, List.tail_nil]
  · rw [levelsLeft_eq_cons inv idle, List.tail_cons]

/-! Any number of clock cycles. -/

theorem invariant_iterate_clockCycle {s : State} (inv : Invariant s) (released : s.resetLine = false) (k : Nat) :
    Invariant (clockCycle^[k] s) := by
  induction k generalizing s with
  | zero => exact inv
  | succ k ih => exact ih (inv.clockCycle released) (by rwa [clockCycle_resetLine])

theorem drained_iterate_clockCycle (k : Nat) (s : State) : drained (clockCycle^[k] s) = drained s := by
  induction k generalizing s with
  | zero => rfl
  | succ k ih => rw [Function.iterate_succ_apply, ih, drained_clockCycle]

theorem levelsLeft_iterate_clockCycle {s : State} (inv : Invariant s) (released : s.resetLine = false) (k : Nat) :
    levelsLeft (clockCycle^[k] s) = (levelsLeft s).drop k := by
  induction k generalizing s with
  | zero => rfl
  | succ k ih =>
    rw [Function.iterate_succ_apply, ih (inv.clockCycle released) (by rwa [clockCycle_resetLine]),
      levelsLeft_clockCycle inv, List.drop_tail]

/-- All the cycles left perform everything that is pending. -/
theorem iterate_clockCycle_cyclesLeft {s : State} (inv : Invariant s) (released : s.resetLine = false) :
    clockCycle^[cyclesLeft s] s = drained s := by
  have after := invariant_iterate_clockCycle inv released (cyclesLeft s)
  have idle : (clockCycle^[cyclesLeft s] s).pending = [] := by
    rw [← levelsLeft_eq_nil_iff after, levelsLeft_iterate_clockCycle inv released, ← length_levelsLeft,
      List.drop_length]
  rw [← drained_of_idle idle (after.waitPos_of_idle idle), drained_iterate_clockCycle]

/-- Before that something is pending. -/
theorem pending_iterate_clockCycle {s : State} {k : Nat} (inv : Invariant s) (released : s.resetLine = false)
    (within : k < cyclesLeft s) : (clockCycle^[k] s).pending ≠ [] := by
  rw [ne_eq, ← levelsLeft_eq_nil_iff (invariant_iterate_clockCycle inv released k),
    levelsLeft_iterate_clockCycle inv released, List.drop_eq_nil_iff, length_levelsLeft]
  omega

/-- The cycle numbered `k` from now leaves the levels numbered `k` of those left. -/
theorem levels_iterate_clockCycle {s : State} {k : Nat} (inv : Invariant s) (released : s.resetLine = false)
    (within : k < cyclesLeft s) : (levelsLeft s)[k]? = some (clockCycle^[k + 1] s).levels := by
  have next := levelsLeft_eq_cons (invariant_iterate_clockCycle inv released k)
    (pending_iterate_clockCycle inv released within)
  rw [levelsLeft_iterate_clockCycle inv released] at next
  rw [← List.head?_drop, next, Function.iterate_succ_apply', List.head?_cons]

/-! ### The waveform of a list of actions (10_state.md R29, R30) -/

theorem waveform_cycles (l : Levels) (as : List PinAction) : ((waveform l as).map Prod.snd).sum = duration as := by
  induction as generalizing l with
  | nil => rfl
  | cons a as ih => rw [waveform_cons, List.map_cons, List.sum_cons, ih, duration_cons]

theorem waveform_last (l : Levels) (as : List PinAction) :
    ((waveform l as).map Prod.fst).getLastD l = levelsAfter l as := by
  induction as generalizing l with
  | nil => rfl
  | cons a as ih => rw [waveform_cons, List.map_cons, List.getLastD_cons, ih, levelsAfter_cons]

/-! ### The obligations: the machine alone -/

/-- Settles O32: the sequencer's turns are prescribed. -/
theorem sequencerDrainsThePendingList : Obligations.SequencerDrainsThePendingList :=
  fun _ inv released turns => run_pending released (.inl turns) inv.waitPos_of_idle

/-- Settles O33: clock turns are clock cycles, and the cycles left are counted by their levels. -/
theorem clockDrainsInExactlyTheCycles : Obligations.ClockDrainsInExactlyTheCycles := by
  intro s k inv released turns
  rw [run_clock k released turns]
  refine ⟨?_, fun within => ⟨_, rfl, ?_⟩⟩
  · rintro rfl
    rw [iterate_clockCycle_cyclesLeft inv released]
  · exact busy_eq_true_iff.2 (pending_iterate_clockCycle inv released within)

/-- Settles O37: the levels left are the waveform's, and the trace grows by the pending list. -/
theorem waveformLastsAsTheActionsDo : Obligations.WaveformLastsAsTheActionsDo := by
  refine ⟨fun l as => ⟨waveform_cycles l as, waveform_last l as⟩, fun s k inv released within turns => ?_,
    fun s inv released turns => ?_⟩
  · refine ⟨_, run_clock (k + 1) released turns, ?_⟩
    rw [← List.getElem?_drop]
    exact levels_iterate_clockCycle inv released within
  · refine ⟨_, run_clock _ released turns, ?_⟩
    rw [iterate_clockCycle_cyclesLeft inv released, ← inv.traceLevels]
    exact waveform_append .idle s.trace s.pending

/-- Settles O47, by induction on the number of steps: the turn is the sequencer's, which has nothing to do, in reset
or out of it. -/
theorem idleBlockDoesNothing : Obligations.IdleBlockDoesNothing := by
  intro n s host idle turns
  have turn := nextTurn_of_noAccess turns host
  have still : step s = .next s := by
    rw [step, turn, takeTurn_of_nil turns, runTurn, sequencerStep_nil idle, ite_self]
  induction n with
  | zero => rfl
  | succ n ih => rw [run_succ_of_next still, ih]

/-! ### The obligations: the host and the machine -/

/-- Settles O27: the read changes nothing that the sequencer looks at, and the sequencer nothing of the host's. -/
theorem readsAndSequencerStepsCommute : Obligations.ReadsAndSequencerStepsCommute := by
  intro s off rest tail released host isReg
  obtain ⟨r, hreg⟩ := Option.isSome_iff_exists.1 isReg
  have readFirst := step_of_windowRead hreg
    (s := { s with turns := .host :: .sequencer :: tail }) ⟨released, rfl, host⟩
  have thenSequencer := step_of_sequencer
    (s := { { s with turns := .host :: .sequencer :: tail }.afterAccess rest with
      reads := s.reads ++ [readReg r { s with turns := .host :: .sequencer :: tail }] }) released rfl
  have sequencerFirst := step_of_sequencer (s := { s with turns := .sequencer :: .host :: tail }) released rfl
  have thenRead := step_of_windowRead hreg (rest := rest)
    (s := sequencerStep (takeTurn { s with turns := .sequencer :: .host :: tail }))
    ⟨by rw [sequencerStep_resetLine]; exact released, nextTurn_of_cons (by rw [sequencerStep_turns]; rfl),
      by rw [sequencerStep_host]; exact host⟩
  refine ⟨_, _, (run_succ_of_next readFirst).trans ((run_one _).trans thenSequencer),
    (run_succ_of_next sequencerFirst).trans ((run_one _).trans thenRead), ?_, ?_, rfl, ?_⟩
  · exact sameBlock.trans
      (sameBlock.sequencerStep (t := takeTurn { s with turns := .sequencer :: .host :: tail }) rfl) rfl
  · rw [sequencerStep_host]
    rfl
  · rw [sequencerStep_pending_eq_tail]
    rfl

/-- Settles O35: the stalled write leaves the turns to the sequencer, and on the idle block it is the next access. -/
theorem stalledWriteIsAcceptedAfterThePendingActions :
    Obligations.StalledWriteIsAcceptedAfterThePendingActions := by
  intro s w rest released busy host
  rw [memWrite_base] at host
  refine ⟨fun turn => step_of_stalledWrite ⟨released, turn, host⟩ busy, fun turns => ?_⟩
  have moves : SequencerMoves s := by
    refine .inr ⟨turns, fun a others head => ?_⟩
    obtain ⟨rfl, -⟩ := List.cons.inj (host.symm.trans head)
    rfl
  have performed := run_pending released moves (fun idle => absurd idle busy)
  rw [clear_turns (s := drained s) turns] at performed
  have next : (drained s).hostNext (commandWrite w) rest := hostNext_commandWrite_of_idle released rfl turns host
  refine ⟨performed, ?_⟩
  rw [run_add performed, run_one, step_of_commandWrite next rfl, afterAccess_of_noTurns (s := drained s) turns]

/-- Settles O40: the run performs the transaction, whose line conditions are those of its sequences. -/
theorem wrregPutsItsFrameOnTheLine : Obligations.WrregPutsItsFrameOnTheLine := by
  intro s idx value inv released idle
  have queue := flatMap_actionsOf_wrreg idx value
  have ended : s.levels = .bothLow ∨ s.levels = .idle := by
    have ends := inv.endLevels
    rwa [idle] at ends
  refine ⟨_, txnSeq Config.devAddr idx value,
    run_withCommands inv released idle queue (by rw [length_txnSeq]; rfl), ?_, rfl, ?_, ?_⟩
  · rw [commandsDone, queue]
    rfl
  · rw [commandsDone, queue]
    exact levelsAfter_txnSeq s.levels Config.devAddr idx value
  · rw [lineEvents_txnSeq, lineEvents_startSeq_of_ended ended]

/-- Settles O42: the six commands have the transaction's actions, and neither latches a result. -/
theorem wrregEqualsTheSixCommands : Obligations.WrregEqualsTheSixCommands := by
  intro s idx value inv released idle
  have queue := flatMap_actionsOf_wrreg idx value
  have queueSix := flatMap_actionsOf_sixCommands idx value
  refine ⟨_, run_withCommands inv released idle queue (by rw [length_txnSeq]; rfl),
    (run_withCommands inv released idle queueSix (by rw [length_txnSeq]; rfl)).trans ?_, rfl⟩
  rw [commandsDone, commandsDone, queue, queueSix]
  rfl

/-- Settles O43: the four commands have WRFREQ's actions, and TUNE latches what WRFREQ latches. -/
theorem wrfreqEqualsTuneAndThreeWrregs : Obligations.WrfreqEqualsTuneAndThreeWrregs := by
  intro s mode band channel inv released idle
  have queue := flatMap_actionsOf_wrfreq mode band channel
  have queueFour := flatMap_actionsOf_tuneAndWrregs mode band channel
  refine ⟨_, _, _, rfl, rfl, run_withCommands inv released idle queue (by rw [length_freqSeq]; rfl),
    (run_withCommands inv released idle queueFour (by rw [length_freqSeq]; rfl)).trans ?_, rfl⟩
  rw [commandsDone, commandsDone, queue, queueFour]
  rfl

end Sys2Proof.Machine
end
